-- ==== Sys2Proof/Word.lean ====
section
/-! DEFINITION. The one fixed-width value of the block, the byte of the LUT.

Every other field (A, IDX, DATA, LEN, request and response words) has a width that depends on the elaboration
parameter W, and rule R33 reads each as an unsigned natural number: those are `Nat`, with the bound stated where it is
checked (`Instr.wellFormed`, `Rsp.Fits`). -/

namespace Sys2Proof

/-- An 8-bit LUT address or LUT entry (R13, R17). -/
abbrev Byte := BitVec 8

end Sys2Proof
end

