-- ==== Sys2Proof/Config.lean ====
section
/-! DEFINITION. What is fixed when an instance of the block is elaborated (R2, R4), and the free values: what the spec
leaves open while the block runs. -/

namespace Sys2Proof

/-- The structural parameters besides W (R4), and the implementation choice of R76 and I11. -/
structure Params where
  /-- DEPTH: the most accepted requests whose responses are not yet delivered (R4, R14). -/
  depth : Nat
  /-- LATENCY: the fewest cycles from acceptance to the first cycle the response can be presented in (R4, R79). -/
  latency : Nat
  /-- READY_DELAY: the most cycles after reset in which `req_ready` may be held low with Q empty (R4, R72). -/
  readyDelay : Nat
  /-- Whether a Q slot freed by a delivery may be used by an acceptance at the same edge (R76, I11). -/
  reuseSlot : Bool
  depth_pos : 1 ≤ depth
  latency_pos : 1 ≤ latency
  deriving DecidableEq, Repr

/-- One instance's elaboration constants. W carries the proof rule R2 asks for, so no instance exists for another W. -/
structure Config extends Params where
  /-- W, the number of significant bits of every pattern (R2). -/
  width : Nat
  width_pos : 0 < width
  width_bytes : width % 8 = 0
  deriving DecidableEq, Repr

/-- The one error of elaboration (R2, R53). -/
inductive ConfigError where
  /-- W = 0 or W mod 8 ≠ 0. -/
  | invalidConfiguration
  deriving DecidableEq, Repr

/-- The parameters of the instance `State.reset` is elaborated with.
DESIGN CHOICE (log entry 2): the spec leaves all four open; no statement rests on them. -/
def Params.sample : Params := ⟨32, 1, 0, false, by decide, by decide⟩

/-- The instance whose request words `spec/opcode_table.json` numbers: W = 8.
DESIGN CHOICE (log entry 2): the spec fixes no W. -/
def Config.table : Config := ⟨Params.sample, 8, by decide, by decide⟩

/-! ### Free values

Nothing constrains these beyond what the operation that applies them adds; each is applied to the draw counter of
`State` (log entry 20). -/

/-- How many more cycles `req_ready` stays low, each time the block chooses (R76, R77, D14; log entry 5). -/
opaque Config.readyStall : Nat → Nat

/-- How many cycles beyond LATENCY a response takes before it can be presented (R77, R79; log entry 6). -/
opaque Config.extraLatency : Nat → Nat

/-- The delay d after a reset cycle, before it is brought within 0..READY_DELAY (R72, I7; log entry 7). -/
opaque Config.startDelay : Nat → Nat

/-- What `resp_word` holds while `resp_valid = 0` (R16, I9; log entry 8). -/
opaque Config.idleRespWord : Nat → Nat

end Sys2Proof
end

