-- ==== Sys2Proof/Machine/Bits.lean ====
section
/-! DEFINITION. The notation of 00_scope.md section 5: fields, concatenation, and the arithmetic of naturals. -/

namespace Sys2Proof

/-- `v[hi:lo]`, the field of bits `hi` down to `lo` (00_scope.md section 5, R18). -/
def slice (v hi lo : Nat) : Nat := v / 2 ^ lo % 2 ^ (hi - lo + 1)

/-- `{a, b}` for a `b` of `n` bits: `a` in the more significant bits (00_scope.md section 5). -/
def concat (a n b : Nat) : Nat := a * 2 ^ n + b

/-- `bitlength(n) = floor(log2 n) + 1`, for `n ≥ 1` (00_scope.md section 5, R3). -/
def bitlength (n : Nat) : Nat := Nat.log2 n + 1

/-- `ceil_div(a, s)`, for `s ≥ 1`, on unbounded naturals (00_scope.md section 5, R50(a)). -/
def ceilDiv (a s : Nat) : Nat := (a + s - 1) / s

/-- The number of `i < n` with `v[i] = 1` (00_scope.md section 5, R51). -/
def popcount : Nat → Nat → Nat
  | 0, _ => 0
  | n + 1, v => popcount n v + (v.testBit n).toNat

/-- `rev8(b)`: the byte whose bit `7 - i` equals `b[i]` (R13). The list runs from bit 7 down to bit 0. -/
def rev8 (b : Byte) : Byte :=
  BitVec.ofBoolListBE
    [b.getLsbD 0, b.getLsbD 1, b.getLsbD 2, b.getLsbD 3, b.getLsbD 4, b.getLsbD 5, b.getLsbD 6, b.getLsbD 7]

/-- Lane `j` of a pattern: `v[8j+7:8j]` (R19). -/
def lane (v j : Nat) : Byte := BitVec.ofNat 8 (slice v (8 * j + 7) (8 * j))

end Sys2Proof
end

