-- ==== Sys2Proof/Machine/Params.lean ====
section
/-! DEFINITION. Elaboration (R2) and the constants derived from W (R3, R31, R32). -/

namespace Sys2Proof

/-- Elaborating the block with width `w`: refused with InvalidConfiguration unless `w` is a positive multiple of 8 (R2). -/
def Config.elaborate (w : Nat) (p : Params) : Except ConfigError Config :=
  if h : 0 < w ∧ w % 8 = 0 then .ok ⟨p, w, h.1, h.2⟩ else .error .invalidConfiguration

/-- MASK = 2^W - 1 (R3). -/
def Config.mask (c : Config) : Nat := 2 ^ c.width - 1

/-- NB = W / 8, the number of byte lanes (R3). -/
def Config.nb (c : Config) : Nat := c.width / 8

/-- CENTER = W / 2 (R3). -/
def Config.center (c : Config) : Nat := c.width / 2

/-- IW = bitlength(W), the width of the IDX and LEN fields (R3). -/
def Config.iw (c : Config) : Nat := bitlength c.width

/-- The length of every request word: W + IW + 4 bits (R31, R38). -/
def Config.reqBits (c : Config) : Nat := c.width + c.iw + 4

/-- The length of every response word: W + IW + 2 bits (R32, R38). -/
def Config.rspBits (c : Config) : Nat := c.width + c.iw + 2

end Sys2Proof
end

