-- ==== Sys2Proof/Syntax.lean ====
section
/-! DEFINITION. The commands of the block: one constructor per row of `spec/opcode_table.json`, in its order.

A constructor carries exactly the fields its command reads (R34, "fields read"); a field a command ignores (R36) is
dropped by the decoder and written as zero by the encoder (log entry 18). Reserved OPs have no row in the table and no
constructor; the machine answers them beside `exec` (log entry 16). -/

namespace Sys2Proof

/-- A command with its operands. -/
inductive Instr where
  /-- Element `idx` of the sweep of a one (R46). -/
  | sweep1 (idx : Nat)
  /-- Element `idx` of the sweep of a zero (R47). -/
  | sweep0 (idx : Nat)
  /-- Element `idx` of the cumulative toggle with parameter `step` (R48). -/
  | toggle (step idx : Nat)
  /-- Element `idx` of the expansion from the centre (R49). -/
  | scan (idx : Nat)
  /-- Reverse the bit order of `value` (R42). -/
  | mirror (value : Nat)
  /-- Read LUT entry `b` (R41). -/
  | lutrd (b : Byte)
  /-- Count the ones of `value` (R51). -/
  | popcnt (value : Nat)
  deriving DecidableEq, Repr

end Sys2Proof
end

