-- ==== Sys2Proof/WellFormed.lean ====
section
/-! DEFINITION. Which commands an instance's request word can carry: every operand fits its field (R31, R33, R40). -/

namespace Sys2Proof

/-- The index fits the IDX field: `idx < 2^IW`. -/
def idxFits (c : Config) (n : Nat) : Bool := decide (n < 2 ^ c.iw)

/-- The value or step fits the A field: `v < 2^W`. -/
def valueFits (c : Config) (v : Nat) : Bool := decide (v < 2 ^ c.width)

/-- Every operand fits its field. A LUTRD byte always does, since W is at least 8. -/
def Instr.wellFormed (c : Config) : Instr → Bool
  | .sweep1 n => idxFits c n
  | .sweep0 n => idxFits c n
  | .toggle step n => valueFits c step && idxFits c n
  | .scan n => idxFits c n
  | .mirror v => valueFits c v
  | .lutrd _ => true
  | .popcnt v => valueFits c v

end Sys2Proof
end

