-- ==== Sys2Proof/Decode.lean ====
section
/-! DEFINITION. Request words to commands and back (30_encoding.md). -/

namespace Sys2Proof

/-- Why a number does not decode to a command of the table. -/
inductive Reject where
  /-- A reserved OP (R35): still a request, answered ILLEGAL_OP by the machine. -/
  | reservedOp (op : Nat)
  /-- The number has more than W+IW+4 bits: no request word (R31, R38, I1). -/
  | notARequestWord
  deriving DecidableEq, Repr

/-- Field A of a request word, `[W-1:0]` (R31). -/
def reqA (c : Config) (w : Nat) : Nat := slice w (c.width - 1) 0

/-- Field IDX of a request word, `[W+IW-1:W]` (R31). -/
def reqIdx (c : Config) (w : Nat) : Nat := slice w (c.width + c.iw - 1) c.width

/-- Field OP of a request word, `[W+IW+3:W+IW]` (R31). -/
def reqOp (c : Config) (w : Nat) : Nat := slice w (c.width + c.iw + 3) (c.width + c.iw)

/-- The request word `{OP, IDX, A}` (R31). -/
def reqWord (c : Config) (op idx a : Nat) : Nat := concat op (c.width + c.iw) (concat idx c.width a)

/-- The byte operand of LUTRD, `A[7:0]` (R33, R41). -/
def byteOperand (a : Nat) : Byte := BitVec.ofNat 8 (slice a 7 0)

/-- The command of OP, with the fields it reads (R34, R39). -/
def decodeFields (op idx a : Nat) : Except Reject Instr :=
  match op with
  | 0x1 => .ok (.sweep1 idx)
  | 0x2 => .ok (.sweep0 idx)
  | 0x3 => .ok (.toggle a idx)
  | 0x4 => .ok (.scan idx)
  | 0x8 => .ok (.mirror a)
  | 0x9 => .ok (.lutrd (byteOperand a))
  | 0xA => .ok (.popcnt a)
  | op => .error (.reservedOp op)

/-- Total decoding, by OP alone (R39). -/
def decode (c : Config) (w : Nat) : Except Reject Instr :=
  if 2 ^ c.reqBits ≤ w then .error .notARequestWord else decodeFields (reqOp c w) (reqIdx c w) (reqA c w)

/-- The request word of a command; ignored fields are zero (R34, R36, R40). -/
def encode (c : Config) : Instr → Nat
  | .sweep1 n => reqWord c 0x1 n 0
  | .sweep0 n => reqWord c 0x2 n 0
  | .toggle step n => reqWord c 0x3 n step
  | .scan n => reqWord c 0x4 n 0
  | .mirror v => reqWord c 0x8 0 v
  | .lutrd b => reqWord c 0x9 0 b.toNat
  | .popcnt v => reqWord c 0xA 0 v

/-- The command whose table word is `w`: the table numbers the bits of the W = 8 request word (log entry 17). -/
def decodeTableWord (nbits w : Nat) : Option Instr :=
  match decode Config.table (w % 2 ^ nbits) with
  | .ok i => some i
  | .error _ => none

/-- A table word's command laid out as a request word of an instance of any width: OP, IDX and A keep their values
(log entry 17). -/
def relayTableWord (c : Config) (w : Nat) : Nat :=
  reqWord c (reqOp Config.table w) (reqIdx Config.table w) (reqA Config.table w)

end Sys2Proof
end

