-- ==== Sys2Proof/Machine/State.lean ====
section
/-! DEFINITION. The whole state of one instance of the block (R8), the host's side of its ports (R75, R80), and the
state after reset (R16). Plain data. -/

namespace Sys2Proof.Machine

/-- The outcome of a command, the STATUS field (R37). -/
inductive Status where
  /-- STATUS = 0: completed, DATA holds the result. -/
  | ok
  /-- STATUS = 1: no element at that index. Not an error (R44, R53). -/
  | endOfSeq
  /-- STATUS = 2: TOGGLE with STEP = 0 (R56). -/
  | invalidArgument
  /-- STATUS = 3: reserved OP (R55). -/
  | illegalOp
  deriving DecidableEq, Repr

/-- A response word `{STATUS, LEN, DATA}` by its fields (R32). -/
structure Rsp where
  status : Status
  len : Nat
  data : Nat
  deriving DecidableEq, Repr

/-- An entry of Q (R14): the response, and how many more cycles pass before it can be presented (R79; log entry 6). -/
structure Pending where
  rsp : Rsp
  wait : Nat
  deriving DecidableEq, Repr

/-- What the host drives on the input ports in one clock cycle (R75). -/
structure HostInput where
  rst : Bool
  reqValid : Bool
  reqWord : Nat
  respReady : Bool
  deriving DecidableEq, Repr

/-- All ports but `clk`, as sampled at one rising edge (R75, R8(d)). -/
structure Ports where
  rst : Bool
  reqValid : Bool
  reqWord : Nat
  respReady : Bool
  reqReady : Bool
  respValid : Bool
  respWord : Nat
  deriving DecidableEq, Repr

/-- The host's side (R80): what it will drive, cycle by cycle, and what it has seen since the last reset (log entries 4 and 15). -/
structure HostSide where
  /-- The inputs of the coming cycles, the next one first. -/
  script : List HostInput
  /-- The request words accepted since the last reset, oldest first. -/
  accepted : List Nat
  /-- The responses delivered since the last reset, oldest first. -/
  received : List Rsp
  deriving DecidableEq, Repr

/-- The state of one instance of the block between two rising edges of `clk` (R8), with its host's side. -/
structure State where
  /-- The elaboration constants (R8(a)). No step changes them. -/
  cfg : Config
  /-- The LUT (R8(b), R13): the addresses that differ from `rev8`, in canonical form. No step changes it. -/
  lut : List Host.Cell
  /-- The pending queue Q, its head first (R8(c), R14). -/
  q : List Pending
  /-- The cycles after reset up to the one that first raises `req_ready` (R16, R72; log entry 7). -/
  starting : Bool
  /-- How many more cycles `req_ready` is held low (R72, R76, R77; log entries 5 and 7). -/
  reqHold : Nat
  /-- How many times the block has drawn from the free values (log entry 20). -/
  draws : Nat
  /-- The ports as sampled at the last edge (R8(d); log entry 19). -/
  ports : Ports
  /-- The host's side of the ports. -/
  host : HostSide
  deriving DecidableEq, Repr

/-- Reasons the machine stops: none. The block has no trap mechanism and no machine fault; an error is a response, and
the block goes on (R54, R58, I12). Safe: nothing stops. -/
inductive Fault where
  deriving DecidableEq, Repr

/-- Reasons a step is refused. -/
inductive Refusal where
  /-- Raised by an arm of `exec` whose command has no meaning yet. Safe: nothing follows from a refusal. No arm raises it. -/
  | notModelled (mnemonic : String)
  /-- Raised by `step` when the host drops or changes a request that waits for `req_ready` (R75, R80, I6: a model refuses
  such a host). Safe: no claim covers such a host. -/
  | hostBrokeHandshake
  /-- Raised by `step` when the host's number does not fit the W+IW+4 wires of `req_word` (R31, I1: refused at the host
  boundary). Safe: such a number never reaches the block. -/
  | notARequestWord
  deriving DecidableEq, Repr

/-- The ports as sampled at the end of a reset cycle (R16, R70): both handshake outputs are 0.
DESIGN CHOICE (log entries 8 and 19): `resp_word` is unspecified and the inputs have no reset value; all are 0 here. -/
def Ports.afterReset : Ports := ⟨true, false, 0, false, false, false, 0⟩

/-- The state after the last reset cycle of an instance `c` (R16), which will hold `req_ready` low for `d` more cycles
(R72), with nothing in the host's script. -/
def State.resetOf (c : Config) (d : Nat) : State where
  cfg := c
  lut := []
  q := []
  starting := true
  reqHold := d
  draws := 0
  ports := Ports.afterReset
  host := ⟨[], [], []⟩

/-- The state right after reset, of the instance the opcode table's words are written for (R16; log entry 2). Its
READY_DELAY is 0, so d is 0. -/
def State.reset : State := State.resetOf Config.table 0

end Sys2Proof.Machine
end

