-- ==== Sys2Proof/Machine/Flags.lean ====
section
/-! DEFINITION. The block has no flags (R11); its only condition indication is the STATUS field of a response (R37). -/

namespace Sys2Proof.Machine

/-- The 2-bit code of a status (R37). -/
def Status.code : Status → Nat
  | .ok => 0
  | .endOfSeq => 1
  | .invalidArgument => 2
  | .illegalOp => 3

/-- The errors a command can raise (R6, R53). -/
inductive ErrorKind where
  | invalidArgument
  | illegalOp
  deriving DecidableEq, Repr

/-- `code(E)` of rule R6. -/
def ErrorKind.status : ErrorKind → Status
  | .invalidArgument => .invalidArgument
  | .illegalOp => .illegalOp

/-- OK or END, by the index and the sequence length (R44, R57). -/
def generatorStatus (len n : Nat) : Status := if len ≤ n then .endOfSeq else .ok

/-- The response word `{STATUS, LEN, DATA}` as one number (R32). -/
def Rsp.toWord (c : Config) (r : Rsp) : Nat := concat r.status.code (c.width + c.iw) (concat r.len c.width r.data)

end Sys2Proof.Machine
end

