-- ==== Sys2Proof/Machine/Ops.lean ====
section
/-! DEFINITION. The named operations of rule R6 over the state: a LUT read, `respond`, and `raise`. There is no write
of any storage and no general register (R6, R9). -/

namespace Sys2Proof.Machine

/-- `MemRead(b, 1)` (R6, R17): the LUT entry at `b`. An address not listed reads as the ROM's contents, `rev8 b` (R13). -/
def lutRead (m : List Host.Cell) (b : Byte) : Byte :=
  match m.find? (fun cell => cell.1 == b.toNat) with
  | some cell => cell.2
  | none => rev8 b

/-- The canonical form of the LUT's list: addresses in 0..255 (R17), strictly rising, no entry equal to what an unlisted
address reads as. -/
def lutWf : List Host.Cell → Bool
  | [] => true
  | [(a, v)] => decide (a < 256) && v != rev8 (BitVec.ofNat 8 a)
  | (a, v) :: (a', v') :: m =>
    decide (a < a') && decide (a < 256) && (v != rev8 (BitVec.ofNat 8 a)) && lutWf ((a', v') :: m)

/-- `respond(STATUS, LEN, DATA)` (R6, R14): append the response to the tail of Q. It can be presented no sooner than
LATENCY cycles from now (R79), and after some further, unspecified, finite number of them (R77; log entry 6). -/
def State.respond (s : State) (r : Rsp) : State :=
  { s with
    q := s.q ++ [⟨r, s.cfg.latency - 1 + Config.extraLatency s.draws⟩]
    draws := s.draws + 1 }

/-- `raise E()` (R6, R54): the error response `{code(E), 0, 0}`, and nothing else. This is the whole of "taking an
exception" here: no state is saved and no control is transferred (R58), so there is no return from one (R59). -/
def State.raise (s : State) (e : ErrorKind) : State := s.respond ⟨e.status, 0, 0⟩

end Sys2Proof.Machine
end

