-- ==== Sys2Proof/Machine/Operands.lean ====
section
/-! DEFINITION. The values the commands compute: lengths and elements of the generators (R46 to R49), the mirror's lane
algorithm (R42). All on unbounded naturals (R50). -/

namespace Sys2Proof.Machine

/-- `LEN_SWEEP1 = LEN_SWEEP0 = W` (R46, R47). -/
def lenSweep (c : Config) : Nat := c.width

/-- `ELEM_SWEEP1(n) = 1 << n` (R46). -/
def elemSweep1 (n : Nat) : Nat := 1 <<< n

/-- `ELEM_SWEEP0(n) = MASK ^ (1 << n)` (R47). -/
def elemSweep0 (c : Config) (n : Nat) : Nat := c.mask ^^^ (1 <<< n)

/-- `LEN_TOGGLE(STEP) = ceil_div(W, STEP)` (R48). -/
def lenToggle (c : Config) (step : Nat) : Nat := ceilDiv c.width step

/-- `ELEM_TOGGLE(STEP, n)`: the OR over `j` in `0..n` of `1 << (j*STEP)` (R48). -/
def elemToggle (step : Nat) : Nat → Nat
  | 0 => 1 <<< (0 * step)
  | n + 1 => elemToggle step n ||| 1 <<< ((n + 1) * step)

/-- `LEN_SCAN = CENTER + 1` (R49). -/
def lenScan (c : Config) : Nat := c.center + 1

/-- `ELEM_SCAN(k)`: bits `lo..hi` set, all others clear (R49). -/
def elemScan (c : Config) (k : Nat) : Nat :=
  let lo := c.center - k
  let hi := min (c.width - 1) (c.center + k)
  ((1 <<< (hi + 1)) - 1) ^^^ ((1 <<< lo) - 1)

/-- The mirror's loop after lanes `0..j-1` of `v` (R42): each went through the LUT into lane `nb-1-j` of the result. -/
def mirrorLanes (m : List Host.Cell) (nb v : Nat) : Nat → Nat
  | 0 => 0
  | j + 1 => mirrorLanes m nb v j ||| (lutRead m (lane v j)).toNat <<< (8 * (nb - 1 - j))

/-- The frame every generator runs (R44), once its parameter is valid: the response for index `n` of a sequence of
length `len`. -/
def generatorReply (len : Nat) (elem : Nat → Nat) (n : Nat) : Rsp :=
  match generatorStatus len n with
  | .ok => ⟨.ok, len, elem n⟩
  | st => ⟨st, len, 0⟩

end Sys2Proof.Machine
end

