-- ==== Sys2Proof/Machine/Generators.lean ====
section
/-! DEFINITION. The generator commands (41_generators.md). -/

namespace Sys2Proof.Machine

/-- SWEEP1 (R46). -/
def execSweep1 (n : Nat) (s : State) : Host.Outcome State Fault Refusal :=
  .next (s.respond (generatorReply (lenSweep s.cfg) elemSweep1 n))

/-- SWEEP0 (R47). -/
def execSweep0 (n : Nat) (s : State) : Host.Outcome State Fault Refusal :=
  .next (s.respond (generatorReply (lenSweep s.cfg) (elemSweep0 s.cfg) n))

/-- TOGGLE (R48). STEP = 0 is checked before anything else (R56, R57). -/
def execToggle (step n : Nat) (s : State) : Host.Outcome State Fault Refusal :=
  if step = 0 then .next (s.raise .invalidArgument)
  else .next (s.respond (generatorReply (lenToggle s.cfg step) (elemToggle step) n))

/-- SCAN (R49). -/
def execScan (n : Nat) (s : State) : Host.Outcome State Fault Refusal :=
  .next (s.respond (generatorReply (lenScan s.cfg) (elemScan s.cfg) n))

end Sys2Proof.Machine
end

