-- ==== Sys2Proof/Machine/Mirror.lean ====
section
/-! DEFINITION. The commands of the byte-reversal LUT (40_mirror.md). -/

namespace Sys2Proof.Machine

/-- MIRROR (R42): NB lookups and a reversal of the lane order. -/
def execMirror (v : Nat) (s : State) : Host.Outcome State Fault Refusal :=
  .next (s.respond ⟨.ok, 0, mirrorLanes s.lut s.cfg.nb v s.cfg.nb⟩)

/-- LUTRD (R41): one LUT entry, zero-extended. -/
def execLutrd (b : Byte) (s : State) : Host.Outcome State Fault Refusal :=
  .next (s.respond ⟨.ok, 0, (lutRead s.lut b).toNat⟩)

end Sys2Proof.Machine
end

