-- ==== Sys2Proof/Machine/Popcount.lean ====
section
/-! DEFINITION. The population count (42_popcount.md). -/

namespace Sys2Proof.Machine

/-- POPCNT (R51): the number of ones among the low W bits. -/
def execPopcnt (v : Nat) (s : State) : Host.Outcome State Fault Refusal :=
  .next (s.respond ⟨.ok, 0, popcount s.cfg.width v⟩)

end Sys2Proof.Machine
end

