-- ==== Sys2Proof/Machine/Dispatch.lean ====
section
/-! DEFINITION. One arm per command. -/

namespace Sys2Proof.Machine

def exec (i : Instr) (s : State) : Host.Outcome State Fault Refusal :=
  match i with
  | .sweep1 n => Sys2Proof.Machine.execSweep1 n s
  | .sweep0 n => Sys2Proof.Machine.execSweep0 n s
  | .toggle step n => Sys2Proof.Machine.execToggle step n s
  | .scan n => Sys2Proof.Machine.execScan n s
  | .mirror v => Sys2Proof.Machine.execMirror v s
  | .lutrd b => Sys2Proof.Machine.execLutrd b s
  | .popcnt v => Sys2Proof.Machine.execPopcnt v s

end Sys2Proof.Machine
end

