-- ==== Sys2Proof/Machine/Ports.lean ====
section
/-! DEFINITION. The ports and the handshake (70_reset_and_hazards.md): what the block drives in a cycle, and what the
rising edge that ends the cycle does to everything but the accepted command. -/

namespace Sys2Proof.Machine

/-- The host presented a request at the last edge and it was not accepted: it must hold it (R75). A reset cycle ends
the obligation (R71, R75). -/
def State.waiting (s : State) : Bool := s.ports.reqValid && !s.ports.reqReady && !s.ports.rst

/-- The host's inputs in the coming cycle. With no script left the host does what it must and no more: it holds a
waiting request and takes no response (log entry 4). -/
def State.nextInput (s : State) : HostInput :=
  match s.host.script with
  | i :: _ => i
  | [] => if s.waiting then ⟨false, true, s.ports.reqWord, false⟩ else ⟨false, false, 0, false⟩

/-- The host keeps a waiting request valid and unchanged (R75, R80). -/
def State.hostHolds (s : State) (i : HostInput) : Bool :=
  !s.waiting || (i.reqValid && i.reqWord == s.ports.reqWord)

/-- A presented request fits the W+IW+4 wires of `req_word` (R31, R75). -/
def State.wordFits (s : State) (i : HostInput) : Bool := !i.reqValid || decide (i.reqWord < 2 ^ s.cfg.reqBits)

/-- `resp_valid` (R70, R75, R76): outside reset, when the head of Q can be presented. -/
def State.respValid (s : State) (i : HostInput) : Bool :=
  !i.rst && match s.q with
    | [] => false
    | p :: _ => p.wait == 0

/-- A response is delivered at the edge (R75). -/
def State.delivers (s : State) (i : HostInput) : Bool := i.respReady && s.respValid i

/-- `|Q|`, a response delivered at this very edge counted as already removed if the implementation allows that (R76, I11). -/
def State.countedLength (s : State) (i : HostInput) : Nat :=
  if s.cfg.reuseSlot && s.delivers i then s.q.length - 1 else s.q.length

/-- Q has room for a request accepted at this edge (R14, R76). -/
def State.hasRoom (s : State) (i : HostInput) : Bool := decide (s.countedLength i < s.cfg.depth)

/-- `req_ready` (R70, R72, R76): outside reset, once the block no longer holds it low, when Q has room. -/
def State.reqReady (s : State) (i : HostInput) : Bool := !i.rst && s.reqHold == 0 && s.hasRoom i

/-- A request is accepted at the edge (R75). -/
def State.accepts (s : State) (i : HostInput) : Bool := i.reqValid && s.reqReady i

/-- `resp_word` (R75, R76): the head of Q while `resp_valid = 1`, otherwise unspecified (R16, I9; log entry 8). -/
def State.respWord (s : State) (i : HostInput) : Nat :=
  match s.respValid i, s.q with
  | true, p :: _ => p.rsp.toWord s.cfg
  | _, _ => Config.idleRespWord s.draws % 2 ^ s.cfg.rspBits

/-- The ports as the edge samples them. -/
def State.sample (s : State) (i : HostInput) : Ports :=
  ⟨i.rst, i.reqValid, i.reqWord, i.respReady, s.reqReady i, s.respValid i, s.respWord i⟩

/-- One cycle less to wait. -/
def Pending.tick (p : Pending) : Pending := { p with wait := p.wait - 1 }

/-- How long `req_ready` is held low from the next cycle on. The delay after reset runs down by itself (R72); while a
request waits and Q has room it runs down, so that the request is accepted (R77(a)); otherwise the block chooses
(R76; log entry 5). -/
def State.nextHold (s : State) (i : HostInput) : Nat :=
  if s.starting && s.reqHold != 0 then s.reqHold - 1
  else if i.reqValid && !s.reqReady i && s.hasRoom i then s.reqHold - 1
  else Config.readyStall s.draws

/-- A rising edge outside reset, less the accepted command: delivery removes the head of Q (R14, R75), every pending
response is one cycle closer to being presented, and the host's record is kept. -/
def State.edge (s : State) (i : HostInput) : State :=
  { s with
    q := (if s.delivers i then s.q.tail else s.q).map Pending.tick
    starting := s.starting && s.reqHold != 0
    reqHold := s.nextHold i
    draws := s.draws + 1
    ports := s.sample i
    host :=
      { script := s.host.script.tail
        accepted := s.host.accepted ++ (if s.accepts i then [i.reqWord] else [])
        received := s.host.received ++ (if s.delivers i then (s.q.take 1).map Pending.rsp else []) } }

/-- A rising edge in a reset cycle (R70, R71, R72): Q is emptied, nothing is accepted or delivered, and the delay d
before `req_ready` is drawn. W and the LUT are unchanged. The host counts from here (R25). -/
def State.resetEdge (s : State) (i : HostInput) : State :=
  { s with
    q := []
    starting := true
    reqHold := Config.startDelay s.draws % (s.cfg.readyDelay + 1)
    draws := s.draws + 1
    ports := s.sample i
    host := ⟨s.host.script.tail, [], []⟩ }

/-- The host presents request word `w` in the very next cycle, the block is ready for it and has room (log entry 17). -/
def State.present (s : State) (w : Nat) : State :=
  { s with
    q := s.q.take (s.cfg.depth - 1)
    reqHold := 0
    ports := { s.ports with reqValid := false }
    host := { s.host with script := ⟨false, true, w, false⟩ :: s.host.script } }

end Sys2Proof.Machine
end

