-- ==== Sys2Proof/Machine/Reserved.lean ====
section
/-! DEFINITION. What a request with a reserved OP does (R35, R55). It has no row in the opcode table (log entry 16). -/

namespace Sys2Proof.Machine

/-- RESERVED (R55): ILLEGAL_OP, whatever IDX and A hold. -/
def execReserved (s : State) : Host.Outcome State Fault Refusal := .next (s.raise .illegalOp)

end Sys2Proof.Machine
end

