-- ==== Sys2Proof/Machine/Cycle.lean ====
section
/-! DEFINITION. One clock cycle of the block: the inputs the host drives, the handshake, and the accepted command. -/

namespace Sys2Proof.Machine

/-- What acceptance of request word `w` does (R14): the command it decodes to, or the ILLEGAL_OP response (R35, R39). -/
def acceptRequest (w : Nat) (s : State) : Host.Outcome State Fault Refusal :=
  match decode s.cfg w with
  | .ok i => exec i s
  | .error (.reservedOp _) => execReserved s
  | .error .notARequestWord => .refused .notARequestWord

/-- One rising edge of `clk` (R70, R75), with the inputs `i`. A host that drives what no host can (a number wider than
the port) or may not (a waiting request dropped or changed) is refused (R80, I1, I6). -/
def State.cycle (s : State) (i : HostInput) : Host.Outcome State Fault Refusal :=
  if i.rst then .next (s.resetEdge i)
  else if !s.wordFits i then .refused .notARequestWord
  else if !s.hostHolds i then .refused .hostBrokeHandshake
  else if s.accepts i then acceptRequest i.reqWord (s.edge i)
  else .next (s.edge i)

end Sys2Proof.Machine
end

