-- ==== Sys2Proof/Machine/Step.lean ====
section
/-! DEFINITION. The machine's step: one rising edge of `clk`. -/

namespace Sys2Proof.Machine

/-- One step: the coming clock cycle with the host's next inputs. -/
def step (s : State) : Host.Outcome State Fault Refusal := s.cycle s.nextInput

/-- `s` with the command of table word `w` presented on the request port in the very next cycle (log entries 4 and 17). -/
def State.withFetchWord (s : State) (nbits w : Nat) : State := s.present (relayTableWord s.cfg (w % 2 ^ nbits))

end Sys2Proof.Machine
end

