-- ==== Sys2Proof/Machine/Assembler.lean ====
section
/-! DEFINITION. The assembler syntax and the response notation (R40), over lists of characters (log entry 24). -/

namespace Sys2Proof.Machine

/-- Why a line does not assemble. -/
inductive AsmError where
  /-- No mnemonic of R40, or not its operands. -/
  | badLine
  /-- Not a decimal or `0x` hexadecimal number. -/
  | badNumber
  /-- An operand that does not fit its field: an assembly error, never reduced (R40). -/
  | doesNotFit
  deriving DecidableEq, Repr

/-- The value of a digit in a base. -/
def digitValue (base : Nat) (ch : Char) : Option Nat :=
  let n := ch.toNat
  let d :=
    if 48 ≤ n ∧ n ≤ 57 then n - 48
    else if 65 ≤ n ∧ n ≤ 70 then n - 55
    else if 97 ≤ n ∧ n ≤ 102 then n - 87
    else base
  if d < base then some d else none

/-- A run of digits, most significant first, after the value `acc`. -/
def digitsValue (base : Nat) : List Char → Nat → Option Nat
  | [], acc => some acc
  | ch :: rest, acc =>
    match digitValue base ch with
    | some d => digitsValue base rest (acc * base + d)
    | none => none

/-- A decimal or `0x` hexadecimal number (R40). -/
def numberValue : List Char → Except AsmError Nat
  | [] => .error .badNumber
  | '0' :: 'x' :: d :: ds =>
    match digitsValue 16 (d :: ds) 0 with
    | some n => .ok n
    | none => .error .badNumber
  | ds =>
    match digitsValue 10 ds 0 with
    | some n => .ok n
    | none => .error .badNumber

/-- A finished token in front of the others. -/
def pushToken (cur : List Char) (ts : List (List Char)) : List (List Char) := if cur.isEmpty then ts else cur :: ts

/-- The tokens of a line: blanks separate, a comma is a token of its own. -/
def tokens (line : List Char) : List (List Char) :=
  let r := line.foldr
    (fun ch st =>
      if ch = ' ' ∨ ch = '\t' then ([], pushToken st.1 st.2)
      else if ch = ',' then ([], [','] :: pushToken st.1 st.2)
      else (ch :: st.1, st.2))
    (([] : List Char), ([] : List (List Char)))
  pushToken r.1 r.2

/-- The request word of a command whose operands must fit (R40). -/
def assemble (c : Config) (i : Instr) : Except AsmError Nat :=
  if i.wellFormed c then .ok (encode c i) else .error .doesNotFit

/-- LUTRD's operand: a byte above 255 is an assembly error (R40). -/
def assembleLutrd (c : Config) (b : Nat) : Except AsmError Nat :=
  if b < 256 then assemble c (.lutrd (BitVec.ofNat 8 b)) else .error .doesNotFit

/-- `.word w`: the raw request word, reserved OPs included (R40). -/
def assembleWord (c : Config) (w : Nat) : Except AsmError Nat :=
  if w < 2 ^ c.reqBits then .ok w else .error .doesNotFit

/-- A mnemonic with one operand (R40). -/
def assembleUnary (c : Config) (m : List Char) (x : Nat) : Except AsmError Nat :=
  if m = ['S', 'W', 'E', 'E', 'P', '1'] then assemble c (.sweep1 x)
  else if m = ['S', 'W', 'E', 'E', 'P', '0'] then assemble c (.sweep0 x)
  else if m = ['S', 'C', 'A', 'N'] then assemble c (.scan x)
  else if m = ['M', 'I', 'R', 'R', 'O', 'R'] then assemble c (.mirror x)
  else if m = ['L', 'U', 'T', 'R', 'D'] then assembleLutrd c x
  else if m = ['P', 'O', 'P', 'C', 'N', 'T'] then assemble c (.popcnt x)
  else if m = ['.', 'w', 'o', 'r', 'd'] then assembleWord c x
  else .error .badLine

/-- One line (R40): its request word, or nothing for a line that holds only blanks or a comment. -/
def assembleLine (c : Config) (line : List Char) : Except AsmError (Option Nat) :=
  match tokens (line.takeWhile (· ≠ ';')) with
  | [] => .ok none
  | [m, x] => do
    let n ← numberValue x
    let w ← assembleUnary c m n
    return some w
  | [m, x, [','], y] =>
    if m = ['T', 'O', 'G', 'G', 'L', 'E'] then do
      let step ← numberValue x
      let n ← numberValue y
      let w ← assemble c (.toggle step n)
      return some w
    else .error .badLine
  | _ => .error .badLine

/-- The name of a status (R37). -/
def Status.name : Status → List Char
  | .ok => ['O', 'K']
  | .endOfSeq => ['E', 'N', 'D']
  | .invalidArgument => ['I', 'N', 'V', 'A', 'L', 'I', 'D', '_', 'A', 'R', 'G', 'U', 'M', 'E', 'N', 'T']
  | .illegalOp => ['I', 'L', 'L', 'E', 'G', 'A', 'L', '_', 'O', 'P']

/-- A hexadecimal digit, capitals. -/
def hexDigit (d : Nat) : Char := if d < 10 then Char.ofNat (48 + d) else Char.ofNat (55 + d)

/-- `v` in `k` hexadecimal digits, most significant first. -/
def hexPadded (v : Nat) : Nat → List Char
  | 0 => []
  | k + 1 => hexDigit (v / 16 ^ k % 16) :: hexPadded v k

/-- `-> STATUS len=LEN data=DATA` (R40), DATA in W/4 hexadecimal digits as the spec's examples write it. -/
def Rsp.written (c : Config) (r : Rsp) : List Char :=
  ['-', '>', ' '] ++ r.status.name ++ [' ', 'l', 'e', 'n', '='] ++ Nat.toDigits 10 r.len ++
    [' ', 'd', 'a', 't', 'a', '=', '0', 'x'] ++ hexPadded r.data (c.width / 4)

end Sys2Proof.Machine
end

