-- ==== Sys2Proof/Machine/HostRef.lean ====
section
/-! DEFINITION. What the spec gives the host, not the block: the masking of its integers (R5), the reference function
H_visualize (R7) and the procedure SEQ that walks a sequence (R45). -/

namespace Sys2Proof.Machine

/-- What a host drives on a W-bit operand field for the integer `x`: its residue modulo `2^W` (R5, R51;
92_eei_decisions.md D5 for a negative `x`). -/
def hostPattern (c : Config) (x : Int) : Nat := (x % (2 ^ c.width : Nat)).toNat

/-- `H_visualize(v)` (R7): W characters, most-significant bit first, after the masking policy of R5. -/
def visualize (c : Config) (v : Int) : List Char :=
  (List.range c.width).map fun k => if (hostPattern c v).testBit (c.width - 1 - k) then '1' else '0'

/-- The response a request word gets when it is accepted in `s`: the entry acceptance appends to Q (R14). -/
def State.replyTo (s : State) (w : Nat) : Option Rsp :=
  match acceptRequest w s with
  | .next t => (t.q.drop s.q.length).head?.map Pending.rsp
  | _ => none

/-- The generators SEQ walks (R44, R45). -/
inductive Gen where
  | sweep1
  | sweep0
  | toggle
  | scan
  deriving DecidableEq, Repr

/-- `opcode(g)` (R34, R45). -/
def Gen.opcode : Gen → Nat
  | .sweep1 => 0x1
  | .sweep0 => 0x2
  | .toggle => 0x3
  | .scan => 0x4

/-- The A field SEQ sends (R45): STEP for TOGGLE, masked as R5 asks of a host; 0 for the other three. A STEP is a
natural: a host refuses a negative one itself (R33; 92_eei_decisions.md D12). DEDUCED (log entry 25). -/
def Gen.operand (c : Config) (step : Nat) : Gen → Nat
  | .toggle => hostPattern c step
  | _ => 0

/-- How SEQ ends (R45). -/
inductive SeqResult where
  /-- END came back: the list, and how many commands were sent. -/
  | sequence (out : List Nat) (sent : Nat)
  /-- INVALID_ARGUMENT came back: no list. -/
  | invalidArgument
  /-- The fuel ran out, or a request got no response. -/
  | noReply
  deriving DecidableEq, Repr

/-- The loop of SEQ (R45) from index `n` with the list `out` so far. -/
def seqLoop (s : State) (g : Gen) (step : Nat) : Nat → Nat → List Nat → SeqResult
  | 0, _, _ => .noReply
  | fuel + 1, n, out =>
    match s.replyTo (reqWord s.cfg g.opcode n (g.operand s.cfg step)) with
    | none => .noReply
    | some r =>
      match r.status with
      | .invalidArgument => .invalidArgument
      | .endOfSeq => .sequence out (n + 1)
      | _ => seqLoop s g step fuel (n + 1) (out ++ [r.data])

/-- `SEQ(g, STEP)` (R45), with fuel for every index the IDX field can hold. -/
def seq (s : State) (g : Gen) (step : Nat) : SeqResult := seqLoop s g step (2 ^ s.cfg.iw) 0 []

end Sys2Proof.Machine
end

