-- ==== Sys2Proof/Machine/Reference.lean ====
section
/-! DEFINITION. The source document's own loops, as rules R46 to R51 quote them, and the response they give each request
word. Written apart from the meanings, so that the two can be proved equal; the machine does not use them. -/

namespace Sys2Proof.Machine

/-- `sweep_ones()`: for `i` from 0 to W-1, `1 << i` (R46). -/
def docSweepOnes (c : Config) : List Nat := (List.range c.width).map fun i => 2 ^ i

/-- `sweep_zeros()`: for `i` from 0 to W-1, all bits but `i` (R47). -/
def docSweepZeros (c : Config) : List Nat := (List.range c.width).map fun i => 2 ^ c.width - 1 - 2 ^ i

/-- The loop of `toggle_sparse(step)` from index `i` with running pattern `p` (R48). -/
def toggleLoop (width step : Nat) : Nat → Nat → Nat → List Nat
  | 0, _, _ => []
  | fuel + 1, i, p =>
    if i < width then (p ||| 2 ^ i) :: toggleLoop width step fuel (i + step) (p ||| 2 ^ i) else []

/-- `toggle_sparse(step)` for a positive `step` (R48); at most W passes. -/
def docToggle (c : Config) (step : Nat) : List Nat := toggleLoop c.width step c.width 0 0

/-- The loop of `scan_patterns()` from offset `k` with running pattern `p` (R49). -/
def scanLoop (width center : Nat) : Nat → Nat → Nat → List Nat
  | 0, _, _ => []
  | fuel + 1, k, p =>
    if k ≤ center ∨ center + k < width then
      let p' := if k ≤ center then p ||| 2 ^ (center - k) else p
      let p'' := if center + k < width then p' ||| 2 ^ (center + k) else p'
      p'' :: scanLoop width center fuel (k + 1) p''
    else []

/-- `scan_patterns()` (R49); at most W passes. -/
def docScan (c : Config) : List Nat := scanLoop c.width c.center c.width 0 0

/-- The full bit reversal of the low `n` bits of `v`: bit `i` goes to bit `n-1-i` (R43). -/
def reverseBits (n v : Nat) : Nat := ((List.range n).map fun i => (v.testBit i).toNat * 2 ^ (n - 1 - i)).sum

/-- The response for index `n` of a sequence given as a list (R44). -/
def listReply (l : List Nat) (n : Nat) : Rsp :=
  match l[n]? with
  | some e => ⟨.ok, l.length, e⟩
  | none => ⟨.endOfSeq, l.length, 0⟩

/-- The response to request word `w` (R14: `exec(W, cmd)`), by the document's loops and the full reversal. -/
def refReply (c : Config) (w : Nat) : Rsp :=
  let n := reqIdx c w
  let a := reqA c w
  match reqOp c w with
  | 0x1 => listReply (docSweepOnes c) n
  | 0x2 => listReply (docSweepZeros c) n
  | 0x3 => if a = 0 then ⟨.invalidArgument, 0, 0⟩ else listReply (docToggle c a) n
  | 0x4 => listReply (docScan c) n
  | 0x8 => ⟨.ok, 0, reverseBits c.width a⟩
  | 0x9 => ⟨.ok, 0, reverseBits 8 (a % 256)⟩
  | 0xA => ⟨.ok, 0, (visualize c a).count '1'⟩
  | _ => ⟨.illegalOp, 0, 0⟩

end Sys2Proof.Machine
end

