-- ==== Sys2Proof/Safety.lean ====
section
/-! DEFINITION. The terms claims are stated in: what it is for a command to complete with a response, and the invariants
of the block. -/

namespace Sys2Proof.Machine

/-- `s` with response `r` appended to the tail of Q, presentable after at least LATENCY cycles and `extra` more, and
nothing else changed but the draw counter (R14, R79). -/
def State.withReply (s : State) (r : Rsp) (extra : Nat) : State :=
  { s with q := s.q ++ [⟨r, s.cfg.latency - 1 + extra⟩], draws := s.draws + 1 }

/-- Executing `i` in `s` answers a next state: `s` with exactly the response `r` appended. -/
def CompletesWith (i : Instr) (s : State) (r : Rsp) : Prop := ∃ extra, exec i s = .next (s.withReply r extra)

/-- Accepting request word `w` in `s` answers a next state: `s` with exactly the response `r` appended. -/
def AnsweredWith (w : Nat) (s : State) (r : Rsp) : Prop := ∃ extra, acceptRequest w s = .next (s.withReply r extra)

/-- The generator commands: OP[3] = 0 and not reserved (R34). -/
def isGeneratorOp (op : Nat) : Bool := op == 0x1 || op == 0x2 || op == 0x3 || op == 0x4

/-- The reserved OP values (R35). -/
def isReservedOp (op : Nat) : Bool := op ∈ [0x0, 0x5, 0x6, 0x7, 0xB, 0xC, 0xD, 0xE, 0xF]

/-- The sequence length of generator opcode `op` with A field `a` (R46 to R49). -/
def sequenceLength (c : Config) (op a : Nat) : Nat :=
  if op = 0x3 then ceilDiv c.width a else if op = 0x4 then c.width / 2 + 1 else c.width

/-- A response's fields fit their widths (R5, R32). -/
def Rsp.Fits (c : Config) (r : Rsp) : Prop := r.len < 2 ^ c.iw ∧ r.data < 2 ^ c.width

/-- Every LUT entry is the reversal of its address (R13). -/
def State.LutIntact (s : State) : Prop := ∀ b : Byte, lutRead s.lut b = rev8 b

/-- The constants hold their values. So does every state of an instance, before its first reset too, where all else is
unspecified (R13, R73; log entry 11). W and what derives from it are valid in every `State` by its type. That the LUT's
list is in its one canonical form is the model's own (log entry 12). -/
structure State.ConstantsHold (s : State) : Prop where
  lutWf : lutWf s.lut = true
  lut : s.LutIntact

/-- Never more than DEPTH pending responses (R14). -/
def State.DepthKept (s : State) : Prop := s.q.length ≤ s.cfg.depth

/-- Every pending and every delivered response fits the response word (R5, R32). -/
def State.ResponsesFit (s : State) : Prop :=
  (∀ p ∈ s.q, p.rsp.Fits s.cfg) ∧ ∀ r ∈ s.host.received, r.Fits s.cfg

/-- The responses delivered, then the responses pending, are the answers to the requests accepted since reset, in order
(R14, R25). -/
def State.InOrder (s : State) : Prop :=
  s.host.received ++ s.q.map Pending.rsp = s.host.accepted.map (refReply s.cfg)

/-- While the delay after reset runs, Q is empty, nothing has been accepted, and the delay is within READY_DELAY (R72). -/
def State.StartKept (s : State) : Prop :=
  s.starting = true → s.q = [] ∧ s.host.accepted = [] ∧ s.host.received = [] ∧ s.reqHold ≤ s.cfg.readyDelay

/-- A response that was presented and not taken is still the head of Q, still presentable (R75). -/
def State.PresentedKept (s : State) : Prop :=
  s.ports.respValid = true → s.ports.respReady = false →
    ∃ p rest, s.q = p :: rest ∧ p.wait = 0 ∧ s.ports.respWord = p.rsp.toWord s.cfg

/-- In a reset cycle neither handshake output is 1 (R70). -/
def State.ResetQuiet (s : State) : Prop :=
  s.ports.rst = true → s.ports.reqReady = false ∧ s.ports.respValid = false

/-- The invariant of the block: what the rules say of every state after a reset, and the canonical form of the LUT's
list, which is the model's own (log entry 12). -/
structure State.Inv (s : State) : Prop where
  constants : s.ConstantsHold
  depth : s.DepthKept
  fit : s.ResponsesFit
  order : s.InOrder
  start : s.StartKept
  presented : s.PresentedKept
  quiet : s.ResetQuiet

/-- The host's input `i` is one a host can and may drive in `s` (R75, R80): the word fits the port and a waiting request
is held, or it is a reset cycle. -/
def State.LegalInput (s : State) (i : HostInput) : Prop := i.rst = true ∨ (s.wordFits i = true ∧ s.hostHolds i = true)

end Sys2Proof.Machine
end

