-- ==== Sys2Proof/Certificates/Slice0/Obligations.lean ====
section
/-! DEFINITION. The statements for the provers, in the order of the spec's files. Each docstring names the rule. -/

open Sys2Proof Sys2Proof.Machine

/-! ### Elaboration and constants (00_scope.md, 10_state.md) -/

/-- R2: an elaboration is refused exactly for W = 0 and W not a multiple of 8, an instance's W is valid and immutable. -/
def Obligations.ElaborationRefusesExactlyBadWidths : Prop :=
  (∀ w p, 0 < w → w % 8 = 0 → ∃ c, Config.elaborate w p = .ok c ∧ c.width = w ∧ c.toParams = p) ∧
  (∀ w p, w = 0 ∨ w % 8 ≠ 0 → Config.elaborate w p = .error .invalidConfiguration) ∧
  (∀ c : Config, 0 < c.width ∧ c.width % 8 = 0) ∧
  (∀ s t, step s = .next t → t.cfg = s.cfg) ∧
  (∀ p, Config.elaborate 0 p = .error .invalidConfiguration ∧ Config.elaborate 7 p = .error .invalidConfiguration ∧
    (∃ c, Config.elaborate 8 p = .ok c ∧ c.width = 8) ∧ ∃ c, Config.elaborate 64 p = .ok c ∧ c.width = 64)

/-- R3: MASK, NB, CENTER and IW, with the rule's examples; IW is the least width that holds every value 0..W. -/
def Obligations.DerivedConstantsAreExact : Prop :=
  (∀ c : Config, c.mask = 2 ^ c.width - 1 ∧ 8 * c.nb = c.width ∧ 2 * c.center = c.width ∧
    c.iw = Nat.log2 c.width + 1 ∧ (∀ n, n ≤ c.width → n < 2 ^ c.iw) ∧ ∀ n, c.width < 2 ^ n → c.iw ≤ n) ∧
  (∀ c : Config, c.width = 8 → c.mask = 255 ∧ c.nb = 1 ∧ c.center = 4 ∧ c.iw = 4) ∧
  (∀ c : Config, c.width = 16 → c.mask = 65535 ∧ c.nb = 2 ∧ c.center = 8 ∧ c.iw = 5) ∧
  (∀ c : Config, c.width = 32 → c.iw = 6) ∧ (∀ c : Config, c.width = 64 → c.iw = 7)

/-- R5: every pattern any command produces, whatever its operands, lies in [0, MASK], and so equals itself masked; an
A field always does. A host drives an integer's residue modulo 2^W, which is the integer itself where it is a pattern. -/
def Obligations.EveryPatternProducedIsWithinMask : Prop :=
  (∀ i s, ∃ r, CompletesWith i s r ∧ r.data ≤ s.cfg.mask ∧ r.data &&& s.cfg.mask = r.data ∧ r.len < 2 ^ s.cfg.iw) ∧
  (∀ (c : Config) w, reqA c w ≤ c.mask ∧ reqA c w &&& c.mask = reqA c w) ∧
  (∀ (c : Config) (x : Int), hostPattern c x ≤ c.mask ∧ (2 ^ c.width : Int) ∣ x - hostPattern c x) ∧
  ∀ (c : Config) v, v ≤ c.mask → hostPattern c v = v

/-- R8, R9, R22: what a command leaves unchanged, for every command. The constants, every LUT entry, the delay and
countdown of `req_ready`, the ports and the host's record are as before; Q keeps its entries in place and gains one. -/
def Obligations.CommandChangesOnlyTheQueueTail : Prop :=
  ∀ i s t, exec i s = .next t →
    t.cfg = s.cfg ∧ (∀ b, lutRead t.lut b = lutRead s.lut b) ∧ t.lut = s.lut ∧ t.starting = s.starting ∧
      t.reqHold = s.reqHold ∧ t.ports = s.ports ∧ t.host = s.host ∧ ∃ p, t.q = s.q ++ [p]

/-- R13: each LUT entry is its address with the bits reversed, the table is an involution, reset leaves it in place and
no step writes it; the rule's examples. -/
def Obligations.LutHoldsByteReversalsForEver : Prop :=
  (∀ c d, (State.resetOf c d).LutIntact) ∧
  (∀ s t, step s = .next t → t.lut = s.lut) ∧
  (∀ s : State, s.LutIntact → ∀ b : Byte,
    (∀ i < 8, (lutRead s.lut b).getLsbD (7 - i) = b.getLsbD i) ∧ lutRead s.lut (lutRead s.lut b) = b) ∧
  (∀ s : State, s.LutIntact → lutRead s.lut 0x01 = 0x80 ∧ lutRead s.lut 0x0F = 0xF0 ∧ lutRead s.lut 0xA5 = 0xA5 ∧
    lutRead s.lut 0x12 = 0x48)

/-- R14: acceptance appends the answer at the tail of Q, delivery removes the head, reset empties Q, nothing else
changes it, and it never grows beyond DEPTH. -/
def Obligations.QueueChangesOnlyByAcceptanceDeliveryReset : Prop :=
  ∀ s t, step s = .next t →
    (t.ports.rst = true → t.q = []) ∧
    (t.ports.rst = false → s.LutIntact →
      t.q.map Pending.rsp =
        (if t.ports.respValid && t.ports.respReady then (s.q.map Pending.rsp).tail else s.q.map Pending.rsp) ++
          (if t.ports.reqValid && t.ports.reqReady then [refReply s.cfg t.ports.reqWord] else [])) ∧
    (s.DepthKept → t.DepthKept)

/-- R15: the response to a request depends on W and the request word only: any two instances of one width, in any two
states, answer it alike. -/
def Obligations.ResponseDependsOnlyOnWidthAndRequest : Prop :=
  ∀ s₁ s₂ : State, s₁.cfg.width = s₂.cfg.width → s₁.LutIntact → s₂.LutIntact → ∀ w, w < 2 ^ s₁.cfg.reqBits →
    ∃ r, AnsweredWith w s₁ r ∧ AnsweredWith w s₂ r

/-- The state after reset (10_state.md section 5). That `State.reset` is the W = 8 instance with no delay drawn is the
model's choice (log entries 2 and 7). -/
def Obligations.ResetStateValues : Prop :=
  State.reset = State.resetOf Config.table 0 ∧
  ∀ c d, (State.resetOf c d).cfg = c ∧ (State.resetOf c d).LutIntact ∧ (State.resetOf c d).q = [] ∧
    (State.resetOf c d).ports.respValid = false ∧ (State.resetOf c d).ports.reqReady = false ∧
    (State.resetOf c d).reqHold = d

/-! ### Bits and lanes (20_memory.md) -/

/-- R19: lane j is bits 8j+7..8j, and a W-bit value is the sum of its NB lanes at their places. -/
def Obligations.LanesMakeUpTheValue : Prop :=
  (∀ v j k, k < 8 → (lane v j).getLsbD k = v.testBit (8 * j + k)) ∧
  ∀ (c : Config) v, v < 2 ^ c.width → v = ((List.range c.nb).map fun j => (lane v j).toNat * 2 ^ (8 * j)).sum

/-- R25: in every state whose record is in order, a step keeps it so; and on every run from reset, for every width and
every host, the k-th response delivered answers the k-th request accepted. -/
def Obligations.ResponsesComeInAcceptanceOrder : Prop :=
  (∀ s t, s.LutIntact → s.InOrder → step s = .next t → t.LutIntact ∧ t.InOrder) ∧
  (∀ c d script n (t : State), Host.Core.run core n { State.resetOf c d with host := ⟨script, [], []⟩ } = .next t →
    t.host.accepted.length = t.host.received.length + t.q.length ∧
    ∀ (k : Nat) (r : Rsp), t.host.received[k]? = some r → ∃ w, t.host.accepted[k]? = some w ∧ r = refReply c w)

/-! ### Encoding (30_encoding.md) -/

/-- R31: the request word and its three fields, and the four layouts of the rule's table. -/
def Obligations.RequestWordFieldsAndLayout : Prop :=
  (∀ (c : Config) op idx a, op < 16 → idx < 2 ^ c.iw → a < 2 ^ c.width →
    reqWord c op idx a < 2 ^ (c.width + c.iw + 4) ∧ reqOp c (reqWord c op idx a) = op ∧
      reqIdx c (reqWord c op idx a) = idx ∧ reqA c (reqWord c op idx a) = a) ∧
  (∀ (c : Config) w, w < 2 ^ (c.width + c.iw + 4) →
    w = reqWord c (reqOp c w) (reqIdx c w) (reqA c w) ∧ reqOp c w < 16 ∧ reqIdx c w < 2 ^ c.iw ∧ reqA c w < 2 ^ c.width) ∧
  (∀ (c : Config) w, c.width = 8 → c.reqBits = 16 ∧ reqOp c w = slice w 15 12 ∧ reqIdx c w = slice w 11 8 ∧
    reqA c w = slice w 7 0) ∧
  (∀ (c : Config) w, c.width = 16 → c.reqBits = 25 ∧ reqOp c w = slice w 24 21 ∧ reqIdx c w = slice w 20 16 ∧
    reqA c w = slice w 15 0) ∧
  (∀ (c : Config) w, c.width = 32 → c.reqBits = 42 ∧ reqOp c w = slice w 41 38 ∧ reqIdx c w = slice w 37 32 ∧
    reqA c w = slice w 31 0) ∧
  (∀ (c : Config) w, c.width = 64 → c.reqBits = 75 ∧ reqOp c w = slice w 74 71 ∧ reqIdx c w = slice w 70 64 ∧
    reqA c w = slice w 63 0)

/-- The response word (30_encoding.md sections 1 and 5): its length, its three fields, and the four codes of its STATUS;
so distinct responses have distinct words. -/
def Obligations.ResponseWordFields : Prop :=
  (∀ (c : Config) (r : Rsp), r.Fits c →
    r.toWord c < 2 ^ c.rspBits ∧ slice (r.toWord c) (c.width - 1) 0 = r.data ∧
      slice (r.toWord c) (c.width + c.iw - 1) c.width = r.len ∧
      slice (r.toWord c) (c.width + c.iw + 1) (c.width + c.iw) = r.status.code) ∧
  (Status.code .ok = 0 ∧ Status.code .endOfSeq = 1 ∧ Status.code .invalidArgument = 2 ∧ Status.code .illegalOp = 3) ∧
  ∀ (c : Config) (r r' : Rsp), r.Fits c → r'.Fits c → r.toWord c = r'.toWord c → r = r'

/-- R35: the nine reserved OPs. Such a request is accepted like any other: a step that accepts it answers the next state
with ILLEGAL_OP appended to what the edge leaves, and nothing else. The all-zero word is one of them. -/
def Obligations.ReservedRequestsAreAcceptedAndAnswered : Prop :=
  (∀ op, op < 16 → (isReservedOp op = true ↔ op ∉ [0x1, 0x2, 0x3, 0x4, 0x8, 0x9, 0xA])) ∧
  (∀ c, reqOp c 0 = 0) ∧
  (∀ (s : State) i w, s.accepts { i with reqWord := w } = s.accepts i) ∧
  ∀ s : State, s.LegalInput s.nextInput → s.accepts s.nextInput = true →
    isReservedOp (reqOp s.cfg s.nextInput.reqWord) = true →
    ∃ extra, step s = .next ((s.edge s.nextInput).withReply ⟨.illegalOp, 0, 0⟩ extra)

/-- R36: a field a command does not read changes no part of the response, and the encoder writes it as zero. -/
def Obligations.IgnoredFieldsChangeNothing : Prop :=
  (∀ (s : State) w w', w < 2 ^ s.cfg.reqBits → w' < 2 ^ s.cfg.reqBits →
    reqOp s.cfg w = reqOp s.cfg w' →
    (reqOp s.cfg w ∈ [0x1, 0x2, 0x3, 0x4] → reqIdx s.cfg w = reqIdx s.cfg w') →
    (reqOp s.cfg w ∈ [0x3, 0x8, 0xA] → reqA s.cfg w = reqA s.cfg w') →
    (reqOp s.cfg w = 0x9 → slice (reqA s.cfg w) 7 0 = slice (reqA s.cfg w') 7 0) →
    acceptRequest w s = acceptRequest w' s) ∧
  (∀ (c : Config) n, n < 2 ^ c.iw →
    reqA c (encode c (.sweep1 n)) = 0 ∧ reqA c (encode c (.sweep0 n)) = 0 ∧ reqA c (encode c (.scan n)) = 0) ∧
  (∀ (c : Config) v (b : Byte), v < 2 ^ c.width →
    reqIdx c (encode c (.mirror v)) = 0 ∧ reqIdx c (encode c (.popcnt v)) = 0 ∧ reqIdx c (encode c (.lutrd b)) = 0 ∧
      reqA c (encode c (.lutrd b)) = b.toNat)

/-- R39: every request word selects one behaviour, by OP alone. -/
def Obligations.DecodingIsTotalByOpcodeAlone : Prop :=
  ∀ (c : Config) w, w < 2 ^ c.reqBits →
    (reqOp c w = 0x1 → decode c w = .ok (.sweep1 (reqIdx c w))) ∧
    (reqOp c w = 0x2 → decode c w = .ok (.sweep0 (reqIdx c w))) ∧
    (reqOp c w = 0x3 → decode c w = .ok (.toggle (reqA c w) (reqIdx c w))) ∧
    (reqOp c w = 0x4 → decode c w = .ok (.scan (reqIdx c w))) ∧
    (reqOp c w = 0x8 → decode c w = .ok (.mirror (reqA c w))) ∧
    (reqOp c w = 0x9 → decode c w = .ok (.lutrd (BitVec.ofNat 8 (reqA c w % 256)))) ∧
    (reqOp c w = 0xA → decode c w = .ok (.popcnt (reqA c w))) ∧
    (isReservedOp (reqOp c w) = true → decode c w = .error (.reservedOp (reqOp c w))) ∧
    (isReservedOp (reqOp c w) = true ∨ reqOp c w ∈ [0x1, 0x2, 0x3, 0x4, 0x8, 0x9, 0xA])

/-- Decoding the request word of any well-formed command, at any width, gives the command back. -/
def Obligations.DecodeOfEncodeGivesTheCommandBack : Prop :=
  ∀ (c : Config) i, i.wellFormed c = true → decode c (encode c i) = .ok i

/-- What decodes is well-formed, and its encoding has the word's OP, its IDX for the generators, its A for TOGGLE,
MIRROR and POPCNT, the low byte of its A for LUTRD, and 0 in each field R36 ignores. -/
def Obligations.DecodedCommandsAreWellFormed : Prop :=
  ∀ (c : Config) w i, decode c w = .ok i →
    i.wellFormed c = true ∧ reqOp c (encode c i) = reqOp c w ∧
      reqIdx c (encode c i) = (if reqOp c w ∈ [0x1, 0x2, 0x3, 0x4] then reqIdx c w else 0) ∧
      reqA c (encode c i) =
        (if reqOp c w ∈ [0x3, 0x8, 0xA] then reqA c w else if reqOp c w = 0x9 then reqA c w % 256 else 0)

/-- One word per command, written out from the encodings of 30_encoding.md at W = 8. -/
def Obligations.SpecWordsDecodeAsWritten : Prop :=
  decode Config.table 0x1300 = .ok (.sweep1 3) ∧ decode Config.table 0x27A5 = .ok (.sweep0 7) ∧
  decode Config.table 0x3103 = .ok (.toggle 3 1) ∧ decode Config.table 0x4200 = .ok (.scan 2) ∧
  decode Config.table 0x8705 = .ok (.mirror 5) ∧ decode Config.table 0x9012 = .ok (.lutrd 0x12) ∧
  decode Config.table 0xA0FF = .ok (.popcnt 0xFF) ∧ decode Config.table 0xF1FF = .error (.reservedOp 0xF)

/-- The assembler (30_encoding.md section 7): a command whose operands fit gives its request word, any other is refused
and never reduced; a byte above 255 is refused; `.word` gives any request word as it is. -/
def Obligations.AssemblerRefusesWhatDoesNotFit : Prop :=
  (∀ (c : Config) i, (i.wellFormed c = true → assemble c i = .ok (encode c i) ∧ encode c i < 2 ^ c.reqBits) ∧
    (i.wellFormed c = false → assemble c i = .error .doesNotFit)) ∧
  (∀ (c : Config) b, (b < 256 → assembleLutrd c b = .ok (reqWord c 0x9 0 b)) ∧
    (256 ≤ b → assembleLutrd c b = .error .doesNotFit)) ∧
  (∀ (c : Config) w, (w < 2 ^ c.reqBits → assembleWord c w = .ok w) ∧
    (2 ^ c.reqBits ≤ w → assembleWord c w = .error .doesNotFit))

/-! ### The LUT commands (40_mirror.md) -/

/-- R41: LUTRD. -/
def Obligations.LutrdReturnsTheLutEntry : Prop :=
  (∀ (c : Config) w, w < 2 ^ c.reqBits → reqOp c w = 0x9 →
    decode c w = .ok (.lutrd (BitVec.ofNat 8 (slice (reqA c w) 7 0)))) ∧
  (∀ (s : State) b, CompletesWith (.lutrd b) s ⟨.ok, 0, (lutRead s.lut b).toNat⟩) ∧
  (∀ s : State, s.LutIntact → ∀ b : Byte, CompletesWith (.lutrd b) s ⟨.ok, 0, (rev8 b).toNat⟩) ∧
  (∀ b ∈ [0x00, 0xFF, 0x18, 0x3C, 0x5A, 0x81, 0xA5, 0xC3, 0xE7], rev8 b = b) ∧
  (∀ s : State, s.cfg.width = 16 → s.LutIntact → AnsweredWith (reqWord s.cfg 0x9 0 0x1201) s ⟨.ok, 0, 0x0080⟩) ∧
  (∀ s : State, s.cfg.width = 8 → ∀ a < 256, ∃ r, CompletesWith (.lutrd (BitVec.ofNat 8 a)) s r ∧ CompletesWith (.mirror a) s r) ∧
  (∀ s : State, s.cfg.width = 8 → s.LutIntact → encode s.cfg (.lutrd 0x12) = 0x9012 ∧
    CompletesWith (.lutrd 0x12) s ⟨.ok, 0, 0x48⟩ ∧ Rsp.toWord s.cfg ⟨.ok, 0, 0x48⟩ = 0x0048)

/-- R42: MIRROR, lane by lane through whatever the LUT holds; and its corner cases with the LUT of R13. -/
def Obligations.MirrorSendsEachLaneThroughTheLut : Prop :=
  (∀ (c : Config) w, w < 2 ^ c.reqBits → reqOp c w = 0x8 → decode c w = .ok (.mirror (reqA c w))) ∧
  (∀ (s : State) v, ∃ r, CompletesWith (.mirror v) s ⟨.ok, 0, r⟩ ∧ r < 2 ^ s.cfg.width ∧
    ∀ j < s.cfg.nb, lane r (s.cfg.nb - 1 - j) = lutRead s.lut (lane v j)) ∧
  (∀ s : State, s.LutIntact →
    CompletesWith (.mirror 0) s ⟨.ok, 0, 0⟩ ∧ CompletesWith (.mirror s.cfg.mask) s ⟨.ok, 0, s.cfg.mask⟩ ∧
    CompletesWith (.mirror 1) s ⟨.ok, 0, 2 ^ (s.cfg.width - 1)⟩ ∧
    CompletesWith (.mirror (2 ^ (s.cfg.width - 1))) s ⟨.ok, 0, 1⟩ ∧
    ∀ v < 2 ^ s.cfg.width, (∀ i < s.cfg.width, v.testBit i = v.testBit (s.cfg.width - 1 - i)) →
      CompletesWith (.mirror v) s ⟨.ok, 0, v⟩) ∧
  (∀ s : State, s.LutIntact → s.cfg.width = 8 → ∀ v : Byte, CompletesWith (.mirror v.toNat) s ⟨.ok, 0, (rev8 v).toNat⟩) ∧
  (∀ s : State, s.LutIntact → s.cfg.width = 16 → encode s.cfg (.mirror 0x1234) = 0x1001234 ∧
    CompletesWith (.mirror 0x1234) s ⟨.ok, 0, 0x2C48⟩ ∧ Rsp.toWord s.cfg ⟨.ok, 0, 0x2C48⟩ = 0x002C48)

/-- R43: MIRROR is the full bit reversal; its result is within MASK, it is an involution, it swaps bit 0 and bit W-1,
and it keeps the population count. -/
def Obligations.MirrorIsTheFullBitReversal : Prop :=
  ∀ s : State, s.LutIntact →
    (∀ v, ∃ r, CompletesWith (.mirror v) s ⟨.ok, 0, r⟩ ∧
      (∀ i < s.cfg.width, r.testBit i = v.testBit (s.cfg.width - 1 - i)) ∧ r ≤ s.cfg.mask ∧
      (v ≤ s.cfg.mask → CompletesWith (.mirror r) s ⟨.ok, 0, v⟩) ∧
      ∃ k, CompletesWith (.popcnt r) s ⟨.ok, 0, k⟩ ∧ CompletesWith (.popcnt v) s ⟨.ok, 0, k⟩) ∧
    CompletesWith (.mirror 1) s ⟨.ok, 0, 2 ^ (s.cfg.width - 1)⟩ ∧
    CompletesWith (.mirror (2 ^ (s.cfg.width - 1))) s ⟨.ok, 0, 1⟩

/-! ### The generators (41_generators.md) -/

/-- R44: the frame every generator request runs. INVALID_ARGUMENT for TOGGLE with STEP = 0, at every index; otherwise
the sequence length L, with 1 ≤ L ≤ W, in LEN, and END at and past L, or OK with an element that depends on the instance's
constants and the request alone. -/
def Obligations.GeneratorsRunOneFrame : Prop :=
  ∀ (c : Config) w, w < 2 ^ c.reqBits → isGeneratorOp (reqOp c w) = true →
    (reqOp c w = 0x3 → reqA c w = 0 → ∀ s : State, s.cfg = c → AnsweredWith w s ⟨.invalidArgument, 0, 0⟩) ∧
    (¬(reqOp c w = 0x3 ∧ reqA c w = 0) →
      1 ≤ sequenceLength c (reqOp c w) (reqA c w) ∧ sequenceLength c (reqOp c w) (reqA c w) ≤ c.width ∧
      (sequenceLength c (reqOp c w) (reqA c w) ≤ reqIdx c w → ∀ s : State, s.cfg = c →
        AnsweredWith w s ⟨.endOfSeq, sequenceLength c (reqOp c w) (reqA c w), 0⟩) ∧
      (reqIdx c w < sequenceLength c (reqOp c w) (reqA c w) → ∃ e ≤ c.mask, ∀ s : State, s.cfg = c →
        AnsweredWith w s ⟨.ok, sequenceLength c (reqOp c w) (reqA c w), e⟩))

/-- R45: the host procedure SEQ ends after L+1 commands with the document's own list, in any state of the block, and
fails with INVALID_ARGUMENT for TOGGLE with STEP = 0. The host masks its STEP as R5 says, so every STEP acts as its
residue modulo 2^W (log entry 25). -/
def Obligations.SeqDeliversTheDocumentsSequences : Prop :=
  ∀ (s : State) step,
    seq s .sweep1 step = .sequence (docSweepOnes s.cfg) (s.cfg.width + 1) ∧
    seq s .sweep0 step = .sequence (docSweepZeros s.cfg) (s.cfg.width + 1) ∧
    seq s .scan step = .sequence (docScan s.cfg) (s.cfg.width / 2 + 2) ∧
    (step % 2 ^ s.cfg.width = 0 → seq s .toggle step = .invalidArgument) ∧
    (step % 2 ^ s.cfg.width ≠ 0 → seq s .toggle step =
      .sequence (docToggle s.cfg (step % 2 ^ s.cfg.width)) (ceilDiv s.cfg.width (step % 2 ^ s.cfg.width) + 1))

/-- R46: SWEEP1. -/
def Obligations.Sweep1SweepsASingleOne : Prop :=
  (∀ (c : Config) w, w < 2 ^ c.reqBits → reqOp c w = 0x1 → decode c w = .ok (.sweep1 (reqIdx c w))) ∧
  (∀ (s : State) n, n < s.cfg.width → CompletesWith (.sweep1 n) s ⟨.ok, s.cfg.width, 2 ^ n⟩) ∧
  (∀ (s : State) n, s.cfg.width ≤ n → CompletesWith (.sweep1 n) s ⟨.endOfSeq, s.cfg.width, 0⟩) ∧
  (∀ (c : Config) n, n < c.width → popcount c.width (2 ^ n) = 1) ∧
  (∀ c : Config, (docSweepOnes c).length = c.width ∧ (docSweepOnes c).Pairwise (· < ·) ∧
    ∀ n < c.width, (docSweepOnes c)[n]? = some (2 ^ n)) ∧
  (∀ c : Config, c.width = 8 → encode c (.sweep1 3) = 0x1300 ∧ Rsp.toWord c ⟨.ok, 8, 0x08⟩ = 0x0808 ∧
    docSweepOnes c = [1, 2, 4, 8, 16, 32, 64, 128])

/-- R47: SWEEP0. -/
def Obligations.Sweep0SweepsASingleZero : Prop :=
  (∀ (c : Config) w, w < 2 ^ c.reqBits → reqOp c w = 0x2 → decode c w = .ok (.sweep0 (reqIdx c w))) ∧
  (∀ (s : State) n, n < s.cfg.width → ∃ e, CompletesWith (.sweep0 n) s ⟨.ok, s.cfg.width, e⟩ ∧
    e = 2 ^ s.cfg.width - 1 - 2 ^ n ∧ e = s.cfg.mask ^^^ 2 ^ n ∧ popcount s.cfg.width e = s.cfg.width - 1 ∧
    ∀ i, e.testBit i = (decide (i < s.cfg.width) && decide (i ≠ n))) ∧
  (∀ (s : State) n, s.cfg.width ≤ n → CompletesWith (.sweep0 n) s ⟨.endOfSeq, s.cfg.width, 0⟩) ∧
  (∀ s : State, CompletesWith (.sweep0 0) s ⟨.ok, s.cfg.width, s.cfg.mask - 1⟩ ∧
    CompletesWith (.sweep0 (s.cfg.width - 1)) s ⟨.ok, s.cfg.width, 2 ^ (s.cfg.width - 1) - 1⟩ ∧
    s.cfg.mask / 2 = 2 ^ (s.cfg.width - 1) - 1) ∧
  (∀ c : Config, c.width = 8 → encode c (.sweep0 0) = 0x2000 ∧ Rsp.toWord c ⟨.ok, 8, 0xFE⟩ = 0x08FE ∧
    docSweepZeros c = [0xFE, 0xFD, 0xFB, 0xF7, 0xEF, 0xDF, 0xBF, 0x7F])

/-- R48: TOGGLE. -/
def Obligations.ToggleAccumulatesEveryStepthBit : Prop :=
  (∀ (c : Config) w, w < 2 ^ c.reqBits → reqOp c w = 0x3 → decode c w = .ok (.toggle (reqA c w) (reqIdx c w))) ∧
  (∀ (s : State) n, CompletesWith (.toggle 0 n) s ⟨.invalidArgument, 0, 0⟩) ∧
  (∀ (s : State) step n, 0 < step → n < ceilDiv s.cfg.width step →
    ∃ e, CompletesWith (.toggle step n) s ⟨.ok, ceilDiv s.cfg.width step, e⟩ ∧
      (∀ i, e.testBit i = true ↔ ∃ j ≤ n, i = j * step) ∧ e < 2 ^ s.cfg.width ∧
      (docToggle s.cfg step)[n]? = some e ∧
      (n = ceilDiv s.cfg.width step - 1 → ∀ i, e.testBit i = true ↔ i % step = 0 ∧ i < s.cfg.width)) ∧
  (∀ (s : State) step n, 0 < step → ceilDiv s.cfg.width step ≤ n →
    CompletesWith (.toggle step n) s ⟨.endOfSeq, ceilDiv s.cfg.width step, 0⟩) ∧
  (∀ (c : Config) step, 0 < step → (docToggle c step).length = ceilDiv c.width step ∧
    c.width ≤ ceilDiv c.width step * step ∧ (ceilDiv c.width step - 1) * step < c.width) ∧
  (∀ (s : State) n, n < s.cfg.width → CompletesWith (.toggle 1 n) s ⟨.ok, s.cfg.width, 2 ^ (n + 1) - 1⟩) ∧
  (∀ (c : Config) step, c.width ≤ step → docToggle c step = [1]) ∧
  (∀ c : Config, docToggle c (c.width - 1) = [1, 1 + 2 ^ (c.width - 1)]) ∧
  (∀ c : Config, c.width = 8 → encode c (.toggle 3 2) = 0x3203 ∧ Rsp.toWord c ⟨.ok, 3, 0x49⟩ = 0x0349 ∧
    docToggle c 3 = [1, 9, 73])

/-- R49: SCAN. -/
def Obligations.ScanGrowsARunFromTheCentre : Prop :=
  (∀ (c : Config) w, w < 2 ^ c.reqBits → reqOp c w = 0x4 → decode c w = .ok (.scan (reqIdx c w))) ∧
  (∀ (s : State) k, k ≤ s.cfg.width / 2 →
    ∃ e, CompletesWith (.scan k) s ⟨.ok, s.cfg.width / 2 + 1, e⟩ ∧
      (∀ i, e.testBit i = true ↔ s.cfg.width / 2 - k ≤ i ∧ i ≤ min (s.cfg.width - 1) (s.cfg.width / 2 + k)) ∧
      (docScan s.cfg)[k]? = some e) ∧
  (∀ (s : State) k, s.cfg.width / 2 + 1 ≤ k → CompletesWith (.scan k) s ⟨.endOfSeq, s.cfg.width / 2 + 1, 0⟩) ∧
  (∀ c : Config, (docScan c).length = c.width / 2 + 1) ∧
  (∀ s : State, CompletesWith (.scan 0) s ⟨.ok, s.cfg.width / 2 + 1, 2 ^ (s.cfg.width / 2)⟩ ∧
    CompletesWith (.scan (s.cfg.width / 2 - 1)) s ⟨.ok, s.cfg.width / 2 + 1, s.cfg.mask - 1⟩ ∧
    CompletesWith (.scan (s.cfg.width / 2)) s ⟨.ok, s.cfg.width / 2 + 1, s.cfg.mask⟩) ∧
  (∀ c : Config, c.width = 8 → encode c (.scan 2) = 0x4200 ∧ Rsp.toWord c ⟨.ok, 5, 0x7C⟩ = 0x057C ∧
    docScan c = [0x10, 0x38, 0x7C, 0xFE, 0xFF])

/-- R50: nothing wraps. Lengths lie in 1..W and fit LEN, every element's bits lie in the W-bit field, and the count fits DATA. -/
def Obligations.NoArithmeticWraps : Prop :=
  ∀ c : Config,
    (∀ step, 1 ≤ step → 1 ≤ ceilDiv c.width step ∧ ceilDiv c.width step ≤ c.width ∧
      (c.width ≤ step → ceilDiv c.width step = 1)) ∧
    (1 ≤ lenSweep c ∧ lenSweep c ≤ c.width ∧ 1 ≤ lenScan c ∧ lenScan c ≤ c.width) ∧
    c.width ≤ 2 ^ c.iw - 1 ∧
    (∀ step n, 1 ≤ step → n ≤ ceilDiv c.width step - 1 → n * step < c.width ∧ elemToggle step n ≤ c.mask) ∧
    (∀ k ≤ c.center, min (c.width - 1) (c.center + k) < c.width ∧ elemScan c k ≤ c.mask) ∧
    (∀ n ≤ c.width - 1, elemSweep1 n ≤ 2 ^ (c.width - 1) ∧ elemSweep1 n ≤ c.mask ∧ elemSweep0 c n ≤ c.mask) ∧
    (∀ i (s : State), s.cfg = c → ∃ r, CompletesWith i s r ∧ r.data ≤ c.mask) ∧
    (∀ v, popcount c.width v ≤ c.width) ∧ c.width < 2 ^ c.width

/-! ### The population count (42_popcount.md) -/

/-- R51: POPCNT. -/
def Obligations.PopcntCountsTheOnes : Prop :=
  (∀ (c : Config) w, w < 2 ^ c.reqBits → reqOp c w = 0xA → decode c w = .ok (.popcnt (reqA c w))) ∧
  (∀ (s : State) v, ∃ k, CompletesWith (.popcnt v) s ⟨.ok, 0, k⟩ ∧
    k = ((Finset.range s.cfg.width).filter fun i => v.testBit i = true).card ∧ k ≤ s.cfg.width) ∧
  (∀ s : State, CompletesWith (.popcnt 0) s ⟨.ok, 0, 0⟩ ∧ CompletesWith (.popcnt s.cfg.mask) s ⟨.ok, 0, s.cfg.width⟩ ∧
    ∀ i < s.cfg.width, CompletesWith (.popcnt (2 ^ i)) s ⟨.ok, 0, 1⟩ ∧
      CompletesWith (.popcnt (s.cfg.mask ^^^ 2 ^ i)) s ⟨.ok, 0, s.cfg.width - 1⟩) ∧
  (∀ (s : State) x, ∃ k, CompletesWith (.popcnt (x % 2 ^ s.cfg.width)) s ⟨.ok, 0, k⟩ ∧
    CompletesWith (.popcnt (x &&& s.cfg.mask)) s ⟨.ok, 0, k⟩ ∧ k = popcount s.cfg.width x) ∧
  (∀ s : State, s.cfg.width = 8 → encode s.cfg (.popcnt 0xFF) = 0xA0FF ∧ CompletesWith (.popcnt 0xFF) s ⟨.ok, 0, 8⟩ ∧
    Rsp.toWord s.cfg ⟨.ok, 0, 8⟩ = 0x0008)

/-- R52: the laws of the population count over the other commands' results. -/
def Obligations.PopcountLawsOverTheOtherCommands : Prop :=
  ∀ s : State,
    (∀ n < s.cfg.width,
      (∃ l e, CompletesWith (.sweep1 n) s ⟨.ok, l, e⟩ ∧ CompletesWith (.popcnt e) s ⟨.ok, 0, 1⟩) ∧
      ∃ l e, CompletesWith (.sweep0 n) s ⟨.ok, l, e⟩ ∧ CompletesWith (.popcnt e) s ⟨.ok, 0, s.cfg.width - 1⟩) ∧
    (s.LutIntact → ∀ v ≤ s.cfg.mask, ∃ r k, CompletesWith (.mirror v) s ⟨.ok, 0, r⟩ ∧
      CompletesWith (.popcnt r) s ⟨.ok, 0, k⟩ ∧ CompletesWith (.popcnt v) s ⟨.ok, 0, k⟩) ∧
    (∀ v ≤ s.cfg.mask, CompletesWith (.popcnt v) s ⟨.ok, 0, (visualize s.cfg v).count '1'⟩) ∧
    (∀ step, 1 ≤ step → ∃ l e, CompletesWith (.toggle step (ceilDiv s.cfg.width step - 1)) s ⟨.ok, l, e⟩ ∧
      CompletesWith (.popcnt e) s ⟨.ok, 0, ceilDiv s.cfg.width step⟩) ∧
    (∀ k ≤ s.cfg.center, ∃ l e, CompletesWith (.scan k) s ⟨.ok, l, e⟩ ∧
      CompletesWith (.popcnt e) s ⟨.ok, 0, min (s.cfg.width - 1) (s.cfg.center + k) - (s.cfg.center - k) + 1⟩)

/-! ### Errors (60_exceptions.md) -/

/-- R54: an error response is {code, 0, 0}, changes nothing else, and the next request is answered as if it had not been. -/
def Obligations.ErrorResponsesLeaveNoTrace : Prop :=
  ∀ (s : State) w e, w < 2 ^ s.cfg.reqBits →
    (AnsweredWith w s e → e.status = .invalidArgument ∨ e.status = .illegalOp → e.len = 0 ∧ e.data = 0) ∧
    (∀ t, acceptRequest w s = .next t → AnsweredWith w s e → e.status = .invalidArgument ∨ e.status = .illegalOp →
      t.cfg = s.cfg ∧ t.lut = s.lut ∧ t.starting = s.starting ∧ t.reqHold = s.reqHold ∧ t.ports = s.ports ∧
        t.host = s.host ∧ t.q.map Pending.rsp = s.q.map Pending.rsp ++ [e] ∧
        ∀ w' r, AnsweredWith w' s r ↔ AnsweredWith w' t r)

/-- R55: a reserved OP is answered ILLEGAL_OP, whatever IDX and A hold; the rule's two words at W = 8. -/
def Obligations.ReservedOpcodesGetIllegalOp : Prop :=
  (∀ (s : State) w, w < 2 ^ s.cfg.reqBits → isReservedOp (reqOp s.cfg w) = true → AnsweredWith w s ⟨.illegalOp, 0, 0⟩) ∧
  (∀ s : State, s.cfg.width = 8 → AnsweredWith 0x0000 s ⟨.illegalOp, 0, 0⟩ ∧ AnsweredWith 0xF1FF s ⟨.illegalOp, 0, 0⟩ ∧
    Rsp.toWord s.cfg ⟨.illegalOp, 0, 0⟩ = 0x3000)

/-- R56: TOGGLE with STEP = 0 gets INVALID_ARGUMENT at every index, and no other request does. -/
def Obligations.InvalidArgumentExactlyForStepZero : Prop :=
  (∀ (s : State) w, w < 2 ^ s.cfg.reqBits →
    (AnsweredWith w s ⟨.invalidArgument, 0, 0⟩ ↔ reqOp s.cfg w = 0x3 ∧ reqA s.cfg w = 0)) ∧
  (∀ (s : State) w r, w < 2 ^ s.cfg.reqBits → AnsweredWith w s r →
    (r.status = .invalidArgument ↔ reqOp s.cfg w = 0x3 ∧ reqA s.cfg w = 0)) ∧
  (∀ s : State, s.cfg.width = 8 → AnsweredWith 0x3000 s ⟨.invalidArgument, 0, 0⟩ ∧
    AnsweredWith 0x3500 s ⟨.invalidArgument, 0, 0⟩ ∧ Rsp.toWord s.cfg ⟨.invalidArgument, 0, 0⟩ = 0x2000)

/-- R57: each request gets exactly one response, and its status is the first that applies of ILLEGAL_OP,
INVALID_ARGUMENT, END and OK. -/
def Obligations.OneStatusByPriority : Prop :=
  ∀ (s : State) w, w < 2 ^ s.cfg.reqBits →
    ∃ r, AnsweredWith w s r ∧ (∀ r', AnsweredWith w s r' → r' = r) ∧
      r.status =
        if isReservedOp (reqOp s.cfg w) then .illegalOp
        else if reqOp s.cfg w = 0x3 ∧ reqA s.cfg w = 0 then .invalidArgument
        else if isGeneratorOp (reqOp s.cfg w) ∧
            sequenceLength s.cfg (reqOp s.cfg w) (reqA s.cfg w) ≤ reqIdx s.cfg w then .endOfSeq
        else .ok

/-! ### The whole machine against the document's loops -/

/-- Every request, in every state with the LUT of R13, is answered as the source document's own loops and the full bit
reversal say (R14, R43, R46 to R51). -/
def Obligations.MachineAnswersAsTheDocumentsLoops : Prop :=
  ∀ (s : State) w, s.LutIntact → w < 2 ^ s.cfg.reqBits → AnsweredWith w s (refReply s.cfg w)

/-! ### Ports, reset and progress (70_reset_and_hazards.md) -/

/-- R70, R71: a reset cycle, from any state whatever: handshake outputs 0, nothing accepted or delivered, Q emptied, a
request presented in it no longer waits, W and the LUT unchanged. -/
def Obligations.ResetCycleEmptiesTheQueue : Prop :=
  ∀ s : State, s.nextInput.rst = true → ∃ t, step s = .next t ∧
    t.ports.rst = true ∧ t.ports.reqReady = false ∧ t.ports.respValid = false ∧ t.q = [] ∧ t.waiting = false ∧
    t.cfg = s.cfg ∧ t.lut = s.lut

/-- After the last reset cycle (70_reset_and_hazards.md section 1) `req_ready` is low for some d cycles, d at most
READY_DELAY, and no response is presented before a request has been accepted. That it is high in the next cycle is the
model's inference from READY_DELAY being the maximum (log entry 7). -/
def Obligations.ReadyDelayAfterReset : Prop :=
  ∀ s t, step s = .next t → t.ports.rst = true →
    ∃ d ≤ s.cfg.readyDelay, ∀ k u, 1 ≤ k → Host.Core.run core k t = .next u →
      (∀ i ∈ t.host.script.take k, i.rst = false) →
      (k ≤ d → u.ports.reqReady = false) ∧ (k = d + 1 → u.ports.reqReady = true) ∧
        (u.host.accepted = [] → u.ports.respValid = false)

/-- The boot sequence (70_reset_and_hazards.md section 2): from any state, one reset cycle and then a host that waits
sees `req_ready = 1` within READY_DELAY + 1 cycles, by the model's inference of log entry 7. -/
def Obligations.BootReachesReady : Prop :=
  ∀ (s : State) i rest, s.host.script = i :: rest → i.rst = true → s.cfg.readyDelay < rest.length →
    (∀ j ∈ rest, j.rst = false ∧ j.reqValid = false) →
    ∃ d ≤ s.cfg.readyDelay, ∃ t, Host.Core.run core (d + 2) s = .next t ∧ t.ports.reqReady = true ∧ t.q = []

/-- When the edge accepts a request that decodes to a command, the step is `exec` of that command in the state the edge
leaves; when it accepts none, the step is the edge alone. -/
def Obligations.StepRunsTheDecodedCommand : Prop :=
  (∀ (s : State) i, s.LegalInput s.nextInput → s.accepts s.nextInput = true →
    decode s.cfg s.nextInput.reqWord = .ok i → step s = exec i (s.edge s.nextInput)) ∧
  (∀ s : State, s.LegalInput s.nextInput → s.nextInput.rst = false → s.accepts s.nextInput = false →
    step s = .next (s.edge s.nextInput))

/-- The model's helper (log entry 17): the table word placed by `withFetchWord` is accepted by the very next step, which
runs it. -/
def Obligations.PlacedTableWordRunsNext : Prop :=
  ∀ (s : State) nbits w i, decodeTableWord nbits w = some i →
    ∃ t r extra, exec i t = .next (t.withReply r extra) ∧ step (s.withFetchWord nbits w) = exec i t ∧ t.cfg = s.cfg ∧
      t.lut = s.lut ∧ t.ports.reqReady = true

/-- Every cycle whose input is one a host can and may drive has a next state; any other is refused, as the
model does for I1 and I6 (log entries 9 and 10); no step faults. -/
def Obligations.EveryLegalCycleHasANextState : Prop :=
  ∀ s : State,
    (s.LegalInput s.nextInput → ∃ t, step s = .next t) ∧
    (¬s.LegalInput s.nextInput → step s = .refused .notARequestWord ∨ step s = .refused .hostBrokeHandshake)

/-- R80's last paragraph: a host that drops or changes a waiting request is refused. -/
def Obligations.BrokenHandshakeIsRefused : Prop :=
  ∀ s : State, s.waiting = true → s.nextInput.rst = false → s.wordFits s.nextInput = true →
    s.nextInput.reqValid = false ∨ s.nextInput.reqWord ≠ s.ports.reqWord → step s = .refused .hostBrokeHandshake

/-- R75's first obligation: a response presented and not taken is presented again, the same word, in the next cycle
that is no reset cycle. From every state, reachable or not. -/
def Obligations.PresentedResponseIsHeld : Prop :=
  ∀ s t u, step s = .next t → t.ports.respValid = true → t.ports.respReady = false → step t = .next u →
    u.ports.rst = false → u.ports.respValid = true ∧ u.ports.respWord = t.ports.respWord

/-- R75's third obligation: `req_ready` does not depend on `req_valid` or `req_word`, nor `resp_valid` on `resp_ready`. -/
def Obligations.OutputsIgnoreTheOtherSidesValid : Prop :=
  ∀ (s : State) i j t u, s.cycle i = .next t → s.cycle j = .next u → i.rst = j.rst →
    t.ports.respValid = u.ports.respValid ∧ (i.respReady = j.respReady → t.ports.reqReady = u.ports.reqReady)

/-- R76: a full Q holds `req_ready` low unless a slot is freed at the same edge and the implementation allows that;
only the head of Q is presented; nothing is dropped while the host takes nothing. -/
def Obligations.FullQueueStopsAcceptance : Prop :=
  ∀ s t, step s = .next t →
    (s.q.length = s.cfg.depth → t.ports.reqReady = true →
      s.cfg.reuseSlot = true ∧ t.ports.respValid = true ∧ t.ports.respReady = true) ∧
    (t.ports.respValid = true → ∃ p rest, s.q = p :: rest ∧ t.ports.respWord = p.rsp.toWord s.cfg) ∧
    (t.ports.rst = false → t.ports.respReady = false → ∃ more, t.q.map Pending.rsp = s.q.map Pending.rsp ++ more)

/-- Progress of requests (70_reset_and_hazards.md section 3): while Q has room and the host holds a request, it is
accepted at the end of the countdown the block drew. The finite bound is the model's countdown (log entry 5). -/
def Obligations.HeldRequestIsEventuallyAccepted : Prop :=
  ∀ (s : State) w, s.reqHold < s.host.script.length →
    (∀ i ∈ s.host.script.take (s.reqHold + 1), i.rst = false ∧ i.reqValid = true ∧ i.reqWord = w) →
    w < 2 ^ s.cfg.reqBits → (s.waiting = true → s.ports.reqWord = w) → s.q.length < s.cfg.depth →
    ∃ t, Host.Core.run core (s.reqHold + 1) s = .next t ∧ t.ports.reqReady = true ∧
      t.host.accepted = s.host.accepted ++ [w]

/-- Progress of responses (70_reset_and_hazards.md section 3): while the host is ready, the head of Q is delivered at
the end of its countdown, whatever else the host requests meanwhile. The finite bound is the model's (log entry 6). -/
def Obligations.HeadOfQueueIsEventuallyDelivered : Prop :=
  ∀ (s : State) p rest, s.q = p :: rest → p.wait < s.host.script.length →
    (∀ i ∈ s.host.script.take (p.wait + 1), i.rst = false ∧ i.respReady = true) →
    (∀ t, Host.Core.run core (p.wait + 1) s = .next t → t.host.received = s.host.received ++ [p.rsp]) ∧
    (s.waiting = false → (∀ i ∈ s.host.script.take (p.wait + 1), i.reqValid = false) →
      ∃ t, Host.Core.run core (p.wait + 1) s = .next t ∧ t.q.map Pending.rsp = rest.map Pending.rsp)

/-- LATENCY (70_reset_and_hazards.md section 5): no request has its response presented sooner than LATENCY cycles after
its acceptance, whatever the host does. The response appended by the accepting step comes after the `t.host.received`
already delivered and the others pending in `t.q`; in each of the next LATENCY - 1 cycles, a response presented is one
of those before it. With Q empty at the acceptance, none is presented. -/
def Obligations.NoResponseSoonerThanLatency : Prop :=
  ∀ s t, s.accepts s.nextInput = true → step s = .next t → ∀ k v u, 1 ≤ k → k < s.cfg.latency →
    Host.Core.run core (k - 1) t = .next v → step v = .next u →
    (u.ports.respValid = true → v.host.received.length + 1 < t.host.received.length + t.q.length) ∧
      (s.q = [] → u.ports.respValid = false)

/-- Before the first reset W and the LUT hold their values, and all else is unspecified (70_reset_and_hazards.md section
1; log entry 11). Every step from such a state leads to such a state, and a reset cycle leads to one with the
block's invariant, in which the canonical form of the LUT's list is the model's own clause (log entry 12). -/
def Obligations.FirstResetEstablishesTheInvariant : Prop :=
  ∀ s : State, s.ConstantsHold →
    (∀ b, lutRead s.lut b = rev8 b) ∧ (∀ t, step s = .next t → t.ConstantsHold ∧ t.cfg = s.cfg) ∧
      (s.nextInput.rst = true → ∃ t, step s = .next t ∧ t.Inv ∧ t.q = [])

/-- The invariant of the block is kept by every step, from every state that has it. That the LUT's list stays canonical
is the model's own clause (log entry 12). -/
def Obligations.EveryStepKeepsTheBlockInvariant : Prop :=
  ∀ s t, s.Inv → step s = .next t → t.Inv

/-- The invariant holds after reset, for every instance and every delay within READY_DELAY; among them `State.reset`, the
model's sample instance (log entry 2). The canonical form of the LUT's list is the model's own clause (log entry 12). -/
def Obligations.ResetStateHasTheBlockInvariant : Prop :=
  State.reset.Inv ∧ ∀ (c : Config) d, d ≤ c.readyDelay → (State.resetOf c d).Inv
end

