-- ==== Sys2Proof/Laws/Bits.lean ====
section
/-! SUPPORT. Fields and concatenation on naturals: what a field of a concatenation is, and that fields fit. -/

namespace Sys2Proof

theorem slice_lt (v hi lo : Nat) : slice v hi lo < 2 ^ (hi - lo + 1) := Nat.mod_lt _ (Nat.two_pow_pos _)

theorem concat_lt {a n b m : Nat} (ha : a < 2 ^ m) (hb : b < 2 ^ n) : concat a n b < 2 ^ (n + m) := by
  have h : (a + 1) * 2 ^ n ≤ 2 ^ m * 2 ^ n := Nat.mul_le_mul_right _ ha
  simp only [concat, Nat.pow_add]
  nlinarith

/-- The low `n` bits of a concatenation are its low part. -/
theorem concat_mod {a n b : Nat} (hb : b < 2 ^ n) : concat a n b % 2 ^ n = b := by
  simp [concat, Nat.mod_eq_of_lt hb]

/-- The bits above `n` of a concatenation are its high part. -/
theorem concat_div {a n b : Nat} (hb : b < 2 ^ n) : concat a n b / 2 ^ n = a := by
  rw [concat, Nat.mul_comm, Nat.mul_add_div (Nat.two_pow_pos _), Nat.div_eq_of_lt hb, Nat.add_zero]

theorem concat_div_mod (v n : Nat) : concat (v / 2 ^ n) n (v % 2 ^ n) = v := by
  rw [concat, Nat.mul_comm]
  exact Nat.div_add_mod v (2 ^ n)

/-- Bit `i` of a reversed byte is bit `7 - i` of the byte. -/
theorem getLsbD_rev8 (b : Byte) {i : Nat} (hi : i < 8) : (rev8 b).getLsbD i = b.getLsbD (7 - i) := by
  interval_cases i <;> simp [rev8, BitVec.ofBoolListBE, BitVec.getElem_cons]

theorem rev8_rev8 (b : Byte) : rev8 (rev8 b) = b :=
  BitVec.eq_of_getLsbD_eq fun i hi => by
    rw [getLsbD_rev8 _ hi, getLsbD_rev8 _ (by omega), show 7 - (7 - i) = i by omega]

namespace Config

variable (c : Config)

theorem eight_le_width : 8 ≤ c.width := by
  have := c.width_pos
  have := c.width_bytes
  omega

theorem mask_add_one : c.mask + 1 = 2 ^ c.width := Nat.sub_add_cancel (Nat.two_pow_pos _)

theorem width_lt_two_pow_iw : c.width < 2 ^ c.iw := Nat.lt_log2_self

theorem nb_mul : 8 * c.nb = c.width := Nat.mul_div_cancel' (Nat.dvd_of_mod_eq_zero c.width_bytes)

theorem two_mul_center : 2 * c.center = c.width := by
  have := c.width_bytes
  simp only [center]
  omega

theorem iw_pos : 0 < c.iw := Nat.succ_pos _

end Config

section fields

variable (c : Config)

/-- Field A is the word's residue modulo 2^W. -/
theorem reqA_eq (w : Nat) : reqA c w = w % 2 ^ c.width := by
  have := c.width_pos
  simp [reqA, slice, Nat.sub_add_cancel this]

theorem reqIdx_eq (w : Nat) : reqIdx c w = w / 2 ^ c.width % 2 ^ c.iw := by
  have := c.iw_pos
  simp only [reqIdx, slice]
  congr 2
  omega

theorem reqOp_eq (w : Nat) : reqOp c w = w / 2 ^ (c.width + c.iw) % 2 ^ 4 := by
  simp only [reqOp, slice]
  congr 2
  omega

theorem reqA_lt (w : Nat) : reqA c w < 2 ^ c.width := by
  rw [reqA_eq]
  exact Nat.mod_lt _ (Nat.two_pow_pos _)

theorem reqIdx_lt (w : Nat) : reqIdx c w < 2 ^ c.iw := by
  rw [reqIdx_eq]
  exact Nat.mod_lt _ (Nat.two_pow_pos _)

theorem reqOp_lt (w : Nat) : reqOp c w < 16 := by
  rw [reqOp_eq]
  exact Nat.mod_lt _ (by decide)

variable {c} {op idx a : Nat}

theorem lowFields_lt (hi : idx < 2 ^ c.iw) (ha : a < 2 ^ c.width) : concat idx c.width a < 2 ^ (c.width + c.iw) :=
  concat_lt hi ha

theorem reqWord_lt (ho : op < 16) (hi : idx < 2 ^ c.iw) (ha : a < 2 ^ c.width) : reqWord c op idx a < 2 ^ c.reqBits :=
  concat_lt (m := 4) ho (lowFields_lt hi ha)

@[simp] theorem reqA_reqWord (hi : idx < 2 ^ c.iw) (ha : a < 2 ^ c.width) : reqA c (reqWord c op idx a) = a := by
  rw [reqA_eq, ← Nat.mod_mul_right_mod _ _ (2 ^ c.iw), ← Nat.pow_add, reqWord, concat_mod (lowFields_lt hi ha), concat_mod ha]

@[simp] theorem reqIdx_reqWord (hi : idx < 2 ^ c.iw) (ha : a < 2 ^ c.width) : reqIdx c (reqWord c op idx a) = idx := by
  rw [reqIdx_eq, ← Nat.mod_mul_right_div_self, ← Nat.pow_add, reqWord, concat_mod (lowFields_lt hi ha), concat_div ha]

@[simp] theorem reqOp_reqWord (ho : op < 16) (hi : idx < 2 ^ c.iw) (ha : a < 2 ^ c.width) :
    reqOp c (reqWord c op idx a) = op := by
  rw [reqOp_eq, reqWord, concat_div (lowFields_lt hi ha)]
  exact Nat.mod_eq_of_lt ho

/-- A word that fits the port decodes by its fields. -/
theorem decode_eq {w : Nat} (h : w < 2 ^ c.reqBits) :
    decode c w = decodeFields (reqOp c w) (reqIdx c w) (reqA c w) := if_neg (Nat.not_le.mpr h)

/-- Two instances of one width decode alike. -/
theorem decode_congr {c c' : Config} (h : c.width = c'.width) (w : Nat) : decode c w = decode c' w := by
  have hi : c.iw = c'.iw := by rw [Config.iw, Config.iw, h]
  have hb : c.reqBits = c'.reqBits := by rw [Config.reqBits, Config.reqBits, h, hi]
  have ho : reqOp c w = reqOp c' w := by rw [reqOp, reqOp, h, hi]
  have hx : reqIdx c w = reqIdx c' w := by rw [reqIdx, reqIdx, h, hi]
  have ha : reqA c w = reqA c' w := by rw [reqA, reqA, h]
  rw [decode, decode, hb, ho, hx, ha]

end fields

end Sys2Proof
end

