-- ==== Sys2Proof/Laws/State.lean ====
section
/-! SUPPORT. One lemma per field per update of the state, so that no later proof unfolds a record update. -/

namespace Sys2Proof.Machine

/-! ### `State.respond` -/

@[simp] theorem State.respond_cfg (s : State) (r : Rsp) : (s.respond r).cfg = s.cfg := rfl
@[simp] theorem State.respond_lut (s : State) (r : Rsp) : (s.respond r).lut = s.lut := rfl
@[simp] theorem State.respond_q (s : State) (r : Rsp) : (s.respond r).q = s.q ++ [⟨r, s.cfg.latency - 1 + Config.extraLatency s.draws⟩] := rfl
@[simp] theorem State.respond_starting (s : State) (r : Rsp) : (s.respond r).starting = s.starting := rfl
@[simp] theorem State.respond_reqHold (s : State) (r : Rsp) : (s.respond r).reqHold = s.reqHold := rfl
@[simp] theorem State.respond_draws (s : State) (r : Rsp) : (s.respond r).draws = s.draws + 1 := rfl
@[simp] theorem State.respond_ports (s : State) (r : Rsp) : (s.respond r).ports = s.ports := rfl
@[simp] theorem State.respond_host (s : State) (r : Rsp) : (s.respond r).host = s.host := rfl

/-! ### `State.withReply` -/

@[simp] theorem State.withReply_cfg (s : State) (r : Rsp) (x : Nat) : (s.withReply r x).cfg = s.cfg := rfl
@[simp] theorem State.withReply_lut (s : State) (r : Rsp) (x : Nat) : (s.withReply r x).lut = s.lut := rfl
@[simp] theorem State.withReply_q (s : State) (r : Rsp) (x : Nat) : (s.withReply r x).q = s.q ++ [⟨r, s.cfg.latency - 1 + x⟩] := rfl
@[simp] theorem State.withReply_starting (s : State) (r : Rsp) (x : Nat) : (s.withReply r x).starting = s.starting := rfl
@[simp] theorem State.withReply_reqHold (s : State) (r : Rsp) (x : Nat) : (s.withReply r x).reqHold = s.reqHold := rfl
@[simp] theorem State.withReply_draws (s : State) (r : Rsp) (x : Nat) : (s.withReply r x).draws = s.draws + 1 := rfl
@[simp] theorem State.withReply_ports (s : State) (r : Rsp) (x : Nat) : (s.withReply r x).ports = s.ports := rfl
@[simp] theorem State.withReply_host (s : State) (r : Rsp) (x : Nat) : (s.withReply r x).host = s.host := rfl

/-! ### `State.edge` -/

@[simp] theorem State.edge_cfg (s : State) (i : HostInput) : (s.edge i).cfg = s.cfg := rfl
@[simp] theorem State.edge_lut (s : State) (i : HostInput) : (s.edge i).lut = s.lut := rfl
@[simp] theorem State.edge_q (s : State) (i : HostInput) : (s.edge i).q = (if s.delivers i then s.q.tail else s.q).map Pending.tick := rfl
@[simp] theorem State.edge_starting (s : State) (i : HostInput) : (s.edge i).starting = (s.starting && s.reqHold != 0) := rfl
@[simp] theorem State.edge_reqHold (s : State) (i : HostInput) : (s.edge i).reqHold = s.nextHold i := rfl
@[simp] theorem State.edge_draws (s : State) (i : HostInput) : (s.edge i).draws = s.draws + 1 := rfl
@[simp] theorem State.edge_ports (s : State) (i : HostInput) : (s.edge i).ports = s.sample i := rfl
@[simp] theorem State.edge_script (s : State) (i : HostInput) : (s.edge i).host.script = s.host.script.tail := rfl
@[simp] theorem State.edge_accepted (s : State) (i : HostInput) :
    (s.edge i).host.accepted = s.host.accepted ++ (if s.accepts i then [i.reqWord] else []) := rfl
@[simp] theorem State.edge_received (s : State) (i : HostInput) :
    (s.edge i).host.received = s.host.received ++ (if s.delivers i then (s.q.take 1).map Pending.rsp else []) := rfl

/-! ### `State.resetEdge` -/

@[simp] theorem State.resetEdge_cfg (s : State) (i : HostInput) : (s.resetEdge i).cfg = s.cfg := rfl
@[simp] theorem State.resetEdge_lut (s : State) (i : HostInput) : (s.resetEdge i).lut = s.lut := rfl
@[simp] theorem State.resetEdge_q (s : State) (i : HostInput) : (s.resetEdge i).q = [] := rfl
@[simp] theorem State.resetEdge_starting (s : State) (i : HostInput) : (s.resetEdge i).starting = true := rfl
@[simp] theorem State.resetEdge_reqHold (s : State) (i : HostInput) : (s.resetEdge i).reqHold = Config.startDelay s.draws % (s.cfg.readyDelay + 1) := rfl
@[simp] theorem State.resetEdge_draws (s : State) (i : HostInput) : (s.resetEdge i).draws = s.draws + 1 := rfl
@[simp] theorem State.resetEdge_ports (s : State) (i : HostInput) : (s.resetEdge i).ports = s.sample i := rfl
@[simp] theorem State.resetEdge_host (s : State) (i : HostInput) : (s.resetEdge i).host = ⟨s.host.script.tail, [], []⟩ := rfl

/-! ### `State.present` -/

@[simp] theorem State.present_cfg (s : State) (w : Nat) : (s.present w).cfg = s.cfg := rfl
@[simp] theorem State.present_lut (s : State) (w : Nat) : (s.present w).lut = s.lut := rfl
@[simp] theorem State.present_q (s : State) (w : Nat) : (s.present w).q = s.q.take (s.cfg.depth - 1) := rfl
@[simp] theorem State.present_starting (s : State) (w : Nat) : (s.present w).starting = s.starting := rfl
@[simp] theorem State.present_reqHold (s : State) (w : Nat) : (s.present w).reqHold = 0 := rfl
@[simp] theorem State.present_draws (s : State) (w : Nat) : (s.present w).draws = s.draws := rfl
@[simp] theorem State.present_ports (s : State) (w : Nat) : (s.present w).ports = { s.ports with reqValid := false } := rfl
@[simp] theorem State.present_host (s : State) (w : Nat) : (s.present w).host = { s.host with script := ⟨false, true, w, false⟩ :: s.host.script } := rfl

/-! ### The reset state -/

@[simp] theorem State.resetOf_cfg (c : Config) (d : Nat) : (State.resetOf c d).cfg = c := rfl
@[simp] theorem State.resetOf_lut (c : Config) (d : Nat) : (State.resetOf c d).lut = [] := rfl
@[simp] theorem State.resetOf_q (c : Config) (d : Nat) : (State.resetOf c d).q = [] := rfl
@[simp] theorem State.resetOf_starting (c : Config) (d : Nat) : (State.resetOf c d).starting = true := rfl
@[simp] theorem State.resetOf_reqHold (c : Config) (d : Nat) : (State.resetOf c d).reqHold = d := rfl
@[simp] theorem State.resetOf_draws (c : Config) (d : Nat) : (State.resetOf c d).draws = 0 := rfl
@[simp] theorem State.resetOf_ports (c : Config) (d : Nat) : (State.resetOf c d).ports = Ports.afterReset := rfl
@[simp] theorem State.resetOf_host (c : Config) (d : Nat) : (State.resetOf c d).host = ⟨[], [], []⟩ := rfl

/-! ### Ports and entries -/

@[simp] theorem State.sample_rst (s : State) (i : HostInput) : (s.sample i).rst = i.rst := rfl
@[simp] theorem State.sample_reqValid (s : State) (i : HostInput) : (s.sample i).reqValid = i.reqValid := rfl
@[simp] theorem State.sample_reqWord (s : State) (i : HostInput) : (s.sample i).reqWord = i.reqWord := rfl
@[simp] theorem State.sample_respReady (s : State) (i : HostInput) : (s.sample i).respReady = i.respReady := rfl
@[simp] theorem State.sample_reqReady (s : State) (i : HostInput) : (s.sample i).reqReady = s.reqReady i := rfl
@[simp] theorem State.sample_respValid (s : State) (i : HostInput) : (s.sample i).respValid = s.respValid i := rfl
@[simp] theorem State.sample_respWord (s : State) (i : HostInput) : (s.sample i).respWord = s.respWord i := rfl
@[simp] theorem Pending.tick_rsp (p : Pending) : p.tick.rsp = p.rsp := rfl
@[simp] theorem Pending.tick_wait (p : Pending) : p.tick.wait = p.wait - 1 := rfl

end Sys2Proof.Machine
end

