-- ==== Sys2Proof/Laws/Ops.lean ====
section
/-! SUPPORT. What the shared operations can do, said once: a LUT read, `respond`, `raise`, and every command through them. -/

namespace Sys2Proof.Machine

/-! ### The LUT -/

@[simp] theorem lutRead_nil (b : Byte) : lutRead [] b = rev8 b := rfl

theorem lutRead_cons (a : Nat) (v : Byte) (m : List Host.Cell) (b : Byte) :
    lutRead ((a, v) :: m) b = if a = b.toNat then v else lutRead m b := by
  by_cases h : a = b.toNat <;> simp [lutRead, h]

/-- A canonical list that reads as the ROM at every address is empty: the ROM has one representation. -/
theorem eq_nil_of_lutWf {m : List Host.Cell} (hw : lutWf m = true) (h : ∀ b, lutRead m b = rev8 b) : m = [] := by
  match m, hw with
  | [], _ => rfl
  | [(a, v)], hw =>
    simp only [lutWf, Bool.and_eq_true, decide_eq_true_eq, bne_iff_ne, ne_eq] at hw
    have := h (BitVec.ofNat 8 a)
    rw [lutRead_cons, if_pos (by simpa using (Nat.mod_eq_of_lt hw.1).symm)] at this
    exact absurd this hw.2
  | (a, v) :: (a', v') :: m, hw =>
    simp only [lutWf, Bool.and_eq_true, decide_eq_true_eq, bne_iff_ne, ne_eq] at hw
    have := h (BitVec.ofNat 8 a)
    rw [lutRead_cons, if_pos (by simpa using (Nat.mod_eq_of_lt hw.1.1.2).symm)] at this
    exact absurd this hw.1.2

theorem lutWf_nil : lutWf [] = true := rfl

/-- The constants hold exactly where the list is empty. -/
theorem constantsHold_iff {s : State} : s.ConstantsHold ↔ s.lut = [] :=
  ⟨fun h => eq_nil_of_lutWf h.lutWf h.lut, fun h => ⟨h ▸ lutWf_nil, fun _ => h ▸ rfl⟩⟩

theorem resetOf_lutIntact (c : Config) (d : Nat) : (State.resetOf c d).LutIntact := fun _ => rfl

/-! ### `respond` and `raise` -/

/-- `respond` is one reply with the extra latency the block drew. -/
theorem respond_eq (s : State) (r : Rsp) : s.respond r = s.withReply r (Config.extraLatency s.draws) := rfl

theorem raise_eq (s : State) (e : ErrorKind) : s.raise e = s.respond ⟨e.status, 0, 0⟩ := rfl

/-! ### The generator frame -/

theorem generatorReply_of_lt {len n : Nat} (elem : Nat → Nat) (h : n < len) :
    generatorReply len elem n = ⟨.ok, len, elem n⟩ := by
  simp [generatorReply, generatorStatus, Nat.not_le.mpr h]

theorem generatorReply_of_le {len n : Nat} (elem : Nat → Nat) (h : len ≤ n) :
    generatorReply len elem n = ⟨.endOfSeq, len, 0⟩ := by
  simp [generatorReply, generatorStatus, h]

/-! ### The commands -/

/-- The response of each command: all a command does is to respond with it (`exec_eq`). -/
def replyOf (s : State) : Instr → Rsp
  | .sweep1 n => generatorReply (lenSweep s.cfg) elemSweep1 n
  | .sweep0 n => generatorReply (lenSweep s.cfg) (elemSweep0 s.cfg) n
  | .toggle step n =>
    if step = 0 then ⟨.invalidArgument, 0, 0⟩ else generatorReply (lenToggle s.cfg step) (elemToggle step) n
  | .scan n => generatorReply (lenScan s.cfg) (elemScan s.cfg) n
  | .mirror v => ⟨.ok, 0, mirrorLanes s.lut s.cfg.nb v s.cfg.nb⟩
  | .lutrd b => ⟨.ok, 0, (lutRead s.lut b).toNat⟩
  | .popcnt v => ⟨.ok, 0, popcount s.cfg.width v⟩

/-- Every command completes, and does nothing but respond. -/
theorem exec_eq (i : Instr) (s : State) : exec i s = .next (s.respond (replyOf s i)) := by
  cases i with
  | toggle step n =>
    by_cases h : step = 0 <;> simp [exec, execToggle, replyOf, raise_eq, ErrorKind.status, h]
  | _ => rfl

theorem completesWith_replyOf (i : Instr) (s : State) : CompletesWith i s (replyOf s i) := ⟨_, exec_eq i s⟩

/-- A command completes with one response only. -/
theorem completesWith_iff {i : Instr} {s : State} {r : Rsp} : CompletesWith i s r ↔ r = replyOf s i := by
  constructor
  · rintro ⟨x, h⟩
    rw [exec_eq] at h
    injection h with h
    have := congrArg State.q h
    simp only [State.respond_q, State.withReply_q] at this
    have := List.append_cancel_left this
    simp only [List.cons.injEq, Pending.mk.injEq] at this
    exact this.1.1.symm
  · rintro rfl
    exact completesWith_replyOf i s

/-- The response of an accepted request word (R14): its command's, or ILLEGAL_OP. -/
def wordReply (s : State) (w : Nat) : Rsp :=
  match decode s.cfg w with
  | .ok i => replyOf s i
  | .error _ => ⟨.illegalOp, 0, 0⟩

/-- A number that fits the port never fails to be a request word. -/
theorem decode_ne_notARequestWord {c : Config} {w : Nat} (h : w < 2 ^ c.reqBits) :
    decode c w ≠ .error .notARequestWord := by
  unfold decode decodeFields
  rw [if_neg (Nat.not_le.mpr h)]
  split <;> simp

/-- Acceptance of a word that fits the port appends exactly its response. -/
theorem acceptRequest_eq {s : State} {w : Nat} (h : w < 2 ^ s.cfg.reqBits) :
    acceptRequest w s = .next (s.respond (wordReply s w)) := by
  have := decode_ne_notARequestWord h
  unfold acceptRequest wordReply
  split <;> simp_all [exec_eq, execReserved, raise_eq, ErrorKind.status]

theorem answeredWith_iff {s : State} {w : Nat} {r : Rsp} (h : w < 2 ^ s.cfg.reqBits) :
    AnsweredWith w s r ↔ r = wordReply s w := by
  constructor
  · rintro ⟨x, hx⟩
    rw [acceptRequest_eq h] at hx
    injection hx with hx
    have := congrArg State.q hx
    simp only [State.respond_q, State.withReply_q] at this
    have := List.append_cancel_left this
    simp only [List.cons.injEq, Pending.mk.injEq] at this
    exact this.1.1.symm
  · rintro rfl
    exact ⟨_, acceptRequest_eq h⟩

end Sys2Proof.Machine
end

