-- ==== Sys2Proof/Laws/PerInstr.lean ====
section
/-! SUPPORT. Family `EncodeFits`: the encoding of a well-formed command fits the request port (R31, R38). -/

namespace Sys2Proof.Laws

/-- At every width, the encoding of the command fits the W+IW+4 bits of a request word. -/
def EncodeFits.Statement (i : Instr) : Prop := ∀ c : Config, i.wellFormed c = true → encode c i < 2 ^ c.reqBits

theorem EncodeFits.sweep1 (n : Nat) : EncodeFits.Statement (.sweep1 n) := fun _ h =>
  reqWord_lt (by decide) (of_decide_eq_true h) (Nat.two_pow_pos _)

theorem EncodeFits.sweep0 (n : Nat) : EncodeFits.Statement (.sweep0 n) := fun _ h =>
  reqWord_lt (by decide) (of_decide_eq_true h) (Nat.two_pow_pos _)

theorem EncodeFits.toggle (step n : Nat) : EncodeFits.Statement (.toggle step n) := fun c h => by
  simp only [Instr.wellFormed, valueFits, idxFits, Bool.and_eq_true, decide_eq_true_eq] at h
  exact reqWord_lt (by decide) h.2 h.1

theorem EncodeFits.scan (n : Nat) : EncodeFits.Statement (.scan n) := fun _ h =>
  reqWord_lt (by decide) (of_decide_eq_true h) (Nat.two_pow_pos _)

theorem EncodeFits.mirror (v : Nat) : EncodeFits.Statement (.mirror v) := fun _ h =>
  reqWord_lt (by decide) (Nat.two_pow_pos _) (of_decide_eq_true h)

theorem EncodeFits.lutrd (b : Byte) : EncodeFits.Statement (.lutrd b) := fun c _ =>
  reqWord_lt (by decide) (Nat.two_pow_pos _)
    (Nat.lt_of_lt_of_le b.isLt (Nat.pow_le_pow_right (by decide) c.eight_le_width))

theorem EncodeFits.popcnt (v : Nat) : EncodeFits.Statement (.popcnt v) := fun _ h =>
  reqWord_lt (by decide) (Nat.two_pow_pos _) (of_decide_eq_true h)

end Sys2Proof.Laws
end

