-- ==== Sys2Proof/Laws/Step.lean ====
section
/-! SUPPORT. Everything one step can do, said once. -/

namespace Sys2Proof.Machine

/-- The three next states of a cycle: a reset cycle; an edge that accepts a request and appends its response; an edge
that accepts none. Outside reset the host's input is legal. -/
theorem cycle_cases {s t : State} {i : HostInput} (h : s.cycle i = .next t) :
    (i.rst = true ∧ t = s.resetEdge i) ∨
    (i.rst = false ∧ s.wordFits i = true ∧ s.hostHolds i = true ∧ s.accepts i = true ∧ i.reqWord < 2 ^ s.cfg.reqBits ∧
      t = (s.edge i).respond (wordReply (s.edge i) i.reqWord)) ∨
    (i.rst = false ∧ s.wordFits i = true ∧ s.hostHolds i = true ∧ s.accepts i = false ∧ t = s.edge i) := by
  unfold State.cycle at h
  split at h
  · rename_i hr
    injection h with h
    exact .inl ⟨hr, h.symm⟩
  · rename_i hr
    split at h
    · cases h
    · rename_i hf
      split at h
      · cases h
      · rename_i hh
        simp only [Bool.not_eq_true, Bool.not_eq_eq_eq_not] at hr hf hh
        split at h
        · rename_i ha
          have hv : i.reqValid = true := by
            simp only [State.accepts, Bool.and_eq_true] at ha
            exact ha.1
          have hw : i.reqWord < 2 ^ s.cfg.reqBits := by simpa [State.wordFits, hv] using hf
          rw [acceptRequest_eq (by simpa using hw)] at h
          injection h with h
          exact .inr (.inl ⟨hr, by simpa using hf, by simpa using hh, ha, hw, h.symm⟩)
        · rename_i ha
          injection h with h
          exact .inr (.inr ⟨hr, by simpa using hf, by simpa using hh, by simpa using ha, h.symm⟩)

/-- `step` is one cycle with the host's next inputs. -/
theorem step_eq (s : State) : step s = s.cycle s.nextInput := rfl

/-- The ports a step records are those of its cycle. -/
theorem cycle_ports {s t : State} {i : HostInput} (h : s.cycle i = .next t) : t.ports = s.sample i := by
  obtain ⟨_, rfl⟩ | ⟨_, _, _, _, _, rfl⟩ | ⟨_, _, _, _, rfl⟩ := cycle_cases h <;> simp

/-- A cycle consumes one entry of the host's script. -/
theorem cycle_script {s t : State} {i : HostInput} (h : s.cycle i = .next t) : t.host.script = s.host.script.tail := by
  obtain ⟨_, rfl⟩ | ⟨_, _, _, _, _, rfl⟩ | ⟨_, _, _, _, rfl⟩ := cycle_cases h <;> simp

/-- No cycle writes the LUT. -/
theorem cycle_lut {s t : State} {i : HostInput} (h : s.cycle i = .next t) : t.lut = s.lut := by
  obtain ⟨_, rfl⟩ | ⟨_, _, _, _, _, rfl⟩ | ⟨_, _, _, _, rfl⟩ := cycle_cases h <;> simp

/-- No cycle changes the constants. -/
theorem cycle_cfg {s t : State} {i : HostInput} (h : s.cycle i = .next t) : t.cfg = s.cfg := by
  obtain ⟨_, rfl⟩ | ⟨_, _, _, _, _, rfl⟩ | ⟨_, _, _, _, rfl⟩ := cycle_cases h <;> simp

end Sys2Proof.Machine
end

