-- ==== Sys2Proof/Laws/Run.lean ====
section
/-! SUPPORT. Legal cycles, the queue over one cycle, and runs of several steps. -/

namespace Sys2Proof.Machine

/-- An edge that accepts a request is no reset edge. -/
theorem accepts_rst {s : State} {i : HostInput} (h : s.accepts i = true) : i.rst = false := by
  simp only [State.accepts, State.reqReady, Bool.and_eq_true, Bool.not_eq_true'] at h
  exact h.2.1.1

/-- A legal cycle is one of three, by its inputs. -/
theorem cycle_of_legal {s : State} {i : HostInput} (hl : s.LegalInput i) :
    (i.rst = true ∧ s.cycle i = .next (s.resetEdge i)) ∨
    (i.rst = false ∧ s.accepts i = true ∧ i.reqWord < 2 ^ s.cfg.reqBits ∧
      s.cycle i = acceptRequest i.reqWord (s.edge i)) ∨
    (i.rst = false ∧ s.accepts i = false ∧ s.cycle i = .next (s.edge i)) := by
  by_cases hr : i.rst = true
  · exact .inl ⟨hr, by simp [State.cycle, hr]⟩
  · simp only [Bool.not_eq_true] at hr
    simp only [State.LegalInput, hr, Bool.false_eq_true, false_or] at hl
    by_cases ha : s.accepts i = true
    · have hv : i.reqValid = true := by
        simp only [State.accepts, Bool.and_eq_true] at ha
        exact ha.1
      exact .inr (.inl ⟨hr, ha, by simpa [State.wordFits, hv] using hl.1, by simp [State.cycle, hr, hl, ha]⟩)
    · simp only [Bool.not_eq_true] at ha
      exact .inr (.inr ⟨hr, ha, by simp [State.cycle, hr, hl, ha]⟩)

/-- Q after a cycle outside reset: what delivery leaves, one cycle older, and at most one new entry, which waits at
least LATENCY cycles. -/
theorem cycle_q {s t : State} {i : HostInput} (h : s.cycle i = .next t) (hr : i.rst = false) :
    ∃ more, t.q = (if s.delivers i then s.q.tail else s.q).map Pending.tick ++ more ∧
      (s.accepts i = false → more = []) ∧ more.length ≤ 1 ∧ ∀ p ∈ more, s.cfg.latency - 1 ≤ p.wait := by
  obtain ⟨h1, rfl⟩ | ⟨_, _, _, ha, _, rfl⟩ | ⟨_, _, _, _, rfl⟩ := cycle_cases h
  · rw [hr] at h1
    cases h1
  · exact ⟨_, rfl, by simp [ha], by simp, by simp; omega⟩
  · exact ⟨[], by simp, by simp, by simp, by simp⟩

/-- While Q is not full there is room, whatever is delivered. -/
theorem hasRoom_of_lt {s : State} (i : HostInput) (h : s.q.length < s.cfg.depth) : s.hasRoom i = true := by
  have : s.countedLength i ≤ s.q.length := by
    rw [State.countedLength]
    split <;> omega
  exact decide_eq_true (by omega)

/-! ### Runs -/

theorem run_zero {s t : State} (h : Host.Core.run core 0 s = .next t) : t = s := by
  simp only [Host.Core.run] at h
  injection h with h
  exact h.symm

theorem run_succ {n : Nat} {s u : State} (h : Host.Core.run core (n + 1) s = .next u) :
    ∃ t, step s = .next t ∧ Host.Core.run core n t = .next u := by
  simp only [Host.Core.run] at h
  split at h
  · rename_i s' hs
    exact ⟨s', hs, h⟩
  · cases h
  · cases h

theorem run_of_step {n : Nat} {s t : State} (h : step s = .next t) :
    Host.Core.run core (n + 1) s = Host.Core.run core n t := by
  have h' : core.step s = .next t := h
  simp only [Host.Core.run, h']

/-- What every step keeps, every run keeps. -/
theorem run_induction {P : State → Prop} (hP : ∀ s t, P s → step s = .next t → P t) (n : Nat) (s t : State) (hs : P s)
    (h : Host.Core.run core n s = .next t) : P t := by
  induction n generalizing s with
  | zero => exact run_zero h ▸ hs
  | succ n ih =>
    obtain ⟨u, hu, h⟩ := run_succ h
    exact ih u (hP s u hs hu) h

end Sys2Proof.Machine
end

