-- ==== Sys2Proof/Laws/Values.lean ====
section
/-! SUPPORT. The bits of the values the commands compute, one lemma per value (R42, R46 to R51). -/

namespace Sys2Proof.Machine

/-- What a host drives fits the operand field. -/
theorem hostPattern_lt (c : Config) (x : Int) : hostPattern c x < 2 ^ c.width := by
  have hp : (0 : Int) < (2 ^ c.width : Nat) := by exact_mod_cast Nat.two_pow_pos c.width
  have := Int.emod_lt_of_pos x hp
  have := Int.emod_nonneg x hp.ne'
  unfold hostPattern
  omega

/-- A natural is driven as its remainder. -/
theorem hostPattern_natCast (c : Config) (n : Nat) : hostPattern c n = n % 2 ^ c.width := by
  unfold hostPattern
  rw [← Int.natCast_emod, Int.toNat_natCast]

/-- An index below `ceil_div(W, step)` is one whose bit `n * step` is in the pattern. -/
theorem lt_ceilDiv {width step n : Nat} (hs : 0 < step) : n < ceilDiv width step ↔ n * step < width := by
  rw [ceilDiv, ← Nat.succ_le_iff, Nat.le_div_iff_mul_le hs, Nat.succ_mul]
  omega

/-- The set bits of a toggle element are the multiples of `step` up to `n * step`. -/
theorem elemToggle_testBit (step n i : Nat) : (elemToggle step n).testBit i = true ↔ ∃ j ≤ n, i = j * step := by
  induction n with
  | zero => simp [elemToggle, Nat.testBit_one_eq_true_iff_self_eq_zero]
  | succ n ih =>
    simp only [elemToggle, Nat.testBit_or, Bool.or_eq_true, ih, Nat.one_shiftLeft, Nat.testBit_two_pow, decide_eq_true_eq]
    constructor
    · rintro (⟨j, hj, rfl⟩ | rfl)
      · exact ⟨j, by omega, rfl⟩
      · exact ⟨n + 1, le_refl _, rfl⟩
    · rintro ⟨j, hj, rfl⟩
      obtain rfl | h : j = n + 1 ∨ j ≤ n := by omega
      · exact .inr rfl
      · exact .inl ⟨j, h, rfl⟩

/-- The set bits of a scan element are those from `lo` to `hi`. -/
theorem elemScan_testBit (c : Config) {k : Nat} (hk : k ≤ c.center) (i : Nat) :
    (elemScan c k).testBit i = true ↔ c.center - k ≤ i ∧ i ≤ min (c.width - 1) (c.center + k) := by
  have := c.two_mul_center
  have := c.width_pos
  simp only [elemScan, Nat.one_shiftLeft, Nat.testBit_xor, Nat.testBit_two_pow_sub_one]
  by_cases h1 : i < min (c.width - 1) (c.center + k) + 1 <;> by_cases h2 : i < c.center - k <;>
    simp only [h1, h2, decide_true, decide_false, Bool.xor_true, Bool.xor_false, Bool.not_true, Bool.not_false,
      Bool.false_eq_true, false_iff, true_iff] <;> omega

/-- After `j` lanes the mirror holds, in its top `j` lanes, the LUT's bytes for lanes `0..j-1` of the value. -/
theorem mirrorLanes_testBit (m : List Host.Cell) {nb v j : Nat} (hj : j ≤ nb) (i : Nat) :
    (mirrorLanes m nb v j).testBit i = true ↔
      8 * (nb - j) ≤ i ∧ i < 8 * nb ∧ (lutRead m (lane v (nb - 1 - i / 8))).getLsbD (i % 8) = true := by
  induction j with
  | zero =>
    simp only [mirrorLanes, Nat.zero_testBit, Bool.false_eq_true, false_iff]
    omega
  | succ j ih =>
    simp only [mirrorLanes, Nat.testBit_or, Bool.or_eq_true, ih (by omega), Nat.testBit_shiftLeft, Bool.and_eq_true,
      decide_eq_true_eq, ge_iff_le]
    rw [BitVec.testBit_toNat]
    constructor
    · rintro (⟨h1, h2, h3⟩ | ⟨h1, h2⟩)
      · exact ⟨by omega, h2, h3⟩
      · have : i - 8 * (nb - 1 - j) < 8 := BitVec.lt_of_getLsbD h2
        have e1 : nb - 1 - i / 8 = j := by omega
        have e2 : i % 8 = i - 8 * (nb - 1 - j) := by omega
        exact ⟨by omega, by omega, by rw [e1, e2]; exact h2⟩
    · rintro ⟨h1, h2, h3⟩
      by_cases h : 8 * (nb - j) ≤ i
      · exact .inl ⟨h, h2, h3⟩
      · have e1 : nb - 1 - i / 8 = j := by omega
        have e2 : i % 8 = i - 8 * (nb - 1 - j) := by omega
        exact .inr ⟨by omega, by rw [e1, e2] at h3; exact h3⟩

/-- The population count depends on the counted bits only. -/
theorem popcount_congr {n v w : Nat} (h : ∀ i < n, v.testBit i = w.testBit i) : popcount n v = popcount n w := by
  induction n with
  | zero => rfl
  | succ n ih => rw [popcount, popcount, ih fun i hi => h i (by omega), h n (by omega)]

end Sys2Proof.Machine
end

