-- ==== Sys2Proof/Tests/Slice0.lean ====
section
/-! SUPPORT. Small tests, their expected results taken from the spec, and for each statement with hypotheses a theorem
that shows them met. -/

namespace Sys2Proof.Machine.Tests

/-! ### Instances and states to test on -/

/-- An instance of width 16. -/
def c16 : Config := ⟨Params.sample, 16, by decide, by decide⟩

/-- An instance of width 32. -/
def c32 : Config := ⟨Params.sample, 32, by decide, by decide⟩

/-- An instance of width 64. -/
def c64 : Config := ⟨Params.sample, 64, by decide, by decide⟩

/-- A W = 8 instance with DEPTH 1, LATENCY 3, READY_DELAY 2, which reuses a freed slot at the same edge. -/
def tight : Config := ⟨⟨1, 3, 2, true, by decide, by decide⟩, 8, by decide, by decide⟩

/-- A W = 8 instance with DEPTH 2 and LATENCY 3. -/
def slow : Config := ⟨⟨2, 3, 0, false, by decide, by decide⟩, 8, by decide, by decide⟩

/-- A freshly reset instance. -/
def fresh (c : Config) : State := State.resetOf c 0

/-- A state past the start with queue `q`, whose host will drive `script`. -/
def running (c : Config) (q : List Pending) (script : List HostInput) : State :=
  { fresh c with q := q, starting := false, ports := ⟨false, false, 0, false, true, false, 0⟩, host := ⟨script, [], []⟩ }

/-- The inputs of a reset cycle, of an idle cycle, of one that takes a response, and of one that requests `w`. -/
def rstIn : HostInput := ⟨true, false, 0, false⟩
def idleIn : HostInput := ⟨false, false, 0, false⟩
def takeIn : HostInput := ⟨false, false, 0, true⟩
def reqIn (w : Nat) : HostInput := ⟨false, true, w, false⟩

/-- The response to request word `w`, as a response word, on a freshly reset instance. -/
def wordOf (c : Config) (w : Nat) : Option Nat := ((fresh c).replyTo w).map (Rsp.toWord c)

/-! ### Well-formedness: one ill-formed term for each check -/

theorem test_wellFormed_accepts :
    [Instr.sweep1 15, .sweep0 15, .toggle 255 15, .scan 15, .mirror 255, .lutrd 255, .popcnt 255].all
      (Instr.wellFormed Config.table) = true := by decide

theorem test_wellFormed_sweep1_index : (Instr.sweep1 16).wellFormed Config.table = false := by decide
theorem test_wellFormed_sweep0_index : (Instr.sweep0 16).wellFormed Config.table = false := by decide
theorem test_wellFormed_toggle_step : (Instr.toggle 256 0).wellFormed Config.table = false := by decide
theorem test_wellFormed_toggle_index : (Instr.toggle 255 16).wellFormed Config.table = false := by decide
theorem test_wellFormed_scan_index : (Instr.scan 16).wellFormed Config.table = false := by decide
theorem test_wellFormed_mirror_value : (Instr.mirror 256).wellFormed Config.table = false := by decide
theorem test_wellFormed_popcnt_value : (Instr.popcnt 256).wellFormed Config.table = false := by decide

/-! ### Decoding: words written out from the encodings of 30_encoding.md and 95_test_vectors.md -/

theorem test_decode_sweep1 : decode Config.table 0b0001_0011_00000000 = .ok (.sweep1 3) := by decide
theorem test_decode_sweep0 : decode Config.table 0b0010_0111_10100101 = .ok (.sweep0 7) := by decide
theorem test_decode_toggle : decode Config.table 0b0011_0001_00000011 = .ok (.toggle 3 1) := by decide
theorem test_decode_scan : decode Config.table 0b0100_0010_00000000 = .ok (.scan 2) := by decide
theorem test_decode_mirror : decode Config.table 0b1000_0111_00000101 = .ok (.mirror 5) := by decide
theorem test_decode_lutrd : decode Config.table 0b1001_0000_00010010 = .ok (.lutrd 0x12) := by decide
theorem test_decode_popcnt : decode Config.table 0b1010_0000_11111111 = .ok (.popcnt 0xFF) := by decide
theorem test_decode_reserved : decode Config.table 0b1111_0001_11111111 = .error (.reservedOp 0xF) := by decide
theorem test_decode_too_long : decode Config.table 0x11000 = .error .notARequestWord := by decide

/-- 95_test_vectors.md sections 2.2 to 2.8: other widths. -/
theorem test_decode_wide :
    decode c16 0x120AB12 = .ok (.lutrd 0x12) ∧ decode c16 0x0650003 = .ok (.toggle 3 5) ∧
      decode c32 0x05F00000000 = .ok (.sweep1 31) ∧ decode c32 0x200DEADBEEF = .ok (.mirror 0xDEADBEEF) ∧
      decode c64 0x180FFFFFFFFFFFFFFFF = .ok (.toggle 0xFFFFFFFFFFFFFFFF 0) := by decide

/-- 95_test_vectors.md sections 2.2 to 2.8: the assembler's words. -/
theorem test_encode_wide :
    encode c16 (.lutrd 0xFF) = 0x12000FF ∧ encode c16 (.scan 9) = 0x0890000 ∧
      encode c32 (.sweep0 32) = 0x0A000000000 ∧ encode c64 (.popcnt 0xFFFFFFFFFFFFFFFF) = 0x500FFFFFFFFFFFFFFFF ∧
      encode c64 (.mirror 0x123456789ABCDEF) = 0x4000123456789ABCDEF := by decide

/-! ### The commands: request word to response word (95_test_vectors.md section 2) -/

theorem test_lut_row_1 :
    (List.range 16).map (fun b => (lutRead [] (BitVec.ofNat 8 (16 + b))).toNat) =
      [0x08, 0x88, 0x48, 0xC8, 0x28, 0xA8, 0x68, 0xE8, 0x18, 0x98, 0x58, 0xD8, 0x38, 0xB8, 0x78, 0xF8] := by decide

theorem test_sweep1 :
    [0x1000, 0x1700, 0x1800, 0x1F00, 0x13FF].map (wordOf Config.table) =
      [some 0x0801, some 0x0880, some 0x1800, some 0x1800, some 0x0808] := by decide

theorem test_sweep1_wide :
    wordOf c32 0x05F00000000 = some 0x2080000000 ∧ wordOf c32 0x06000000000 = some 0x6000000000 := by decide

theorem test_sweep0 :
    [0x2000, 0x2700, 0x2800].map (wordOf Config.table) = [some 0x08FE, some 0x087F, some 0x1800] := by decide

theorem test_sweep0_wide : wordOf c16 0x04F0000 = some 0x107FFF ∧ wordOf c16 0x0500000 = some 0x300000 := by decide

theorem test_toggle :
    [0x3203, 0x3303, 0x3000, 0x3F00, 0x3701, 0x31FF].map (wordOf Config.table) =
      [some 0x0349, some 0x1300, some 0x2000, some 0x2000, some 0x08FF, some 0x1100] := by decide

theorem test_toggle_wide :
    wordOf c32 0x0C400000007 = some 0x0510204081 ∧ wordOf c64 0x180FFFFFFFFFFFFFFFF = some 0x0010000000000000001 := by
  decide

theorem test_scan :
    [0x4000, 0x4100, 0x4300, 0x4400, 0x4500].map (wordOf Config.table) =
      [some 0x0510, some 0x0538, some 0x05FE, some 0x05FF, some 0x1500] := by decide

theorem test_scan_wide : wordOf c32 0x11000000000 = some 0x11FFFFFFFF ∧ wordOf c16 0x0870000 = some 0x09FFFE := by decide

theorem test_mirror :
    [0x8001, 0x8080, 0x80EF, 0x8705].map (wordOf Config.table) =
      [some 0x0080, some 0x0001, some 0x00F7, some 0x00A0] := by decide

theorem test_mirror_wide :
    wordOf c16 0x1005678 = some 0x001E6A ∧ wordOf c32 0x200DEADBEEF = some 0x00F77DB57B ∧
      wordOf c64 0x4000123456789ABCDEF = some 0x000F7B3D591E6A2C480 := by decide

theorem test_lutrd :
    [0x9003, 0x9037, 0x906B, 0x9F12].map (wordOf Config.table) =
      [some 0x00C0, some 0x00EC, some 0x00D6, some 0x0048] := by decide

theorem test_lutrd_wide : wordOf c16 0x120AB12 = some 0x000048 ∧ wordOf c32 0x240DEADBE37 = some 0x00000000EC := by decide

theorem test_popcnt :
    [0xA000, 0xA0A5, 0xA0FE].map (wordOf Config.table) = [some 0x0000, some 0x0004, some 0x0007] := by decide

theorem test_popcnt_wide :
    wordOf c16 0x140BEEF = some 0x00000D ∧ wordOf c64 0x500FFFFFFFFFFFFFFFF = some 0x0000000000000000040 := by decide

/-- Section 2.9: a word of each reserved OP. -/
theorem test_reserved :
    [0x0000, 0x0FFF, 0x5342, 0x6342, 0x7342, 0xB342, 0xC342, 0xD342, 0xE342, 0xF000, 0xFFFF].map (wordOf Config.table) =
      List.replicate 11 (some 0x3000) ∧ wordOf c16 0x1FFFFFF = some 0x600000 := by decide

/-- Program P1: SEQ TOGGLE 3 at W = 8 gives [1, 9, 73] after 4 commands. -/
theorem test_seq_toggle : seq State.reset .toggle 3 = .sequence [1, 9, 73] 4 := by decide

/-- R5: the host masks a STEP of 259 to 3 and one of 256 to 0, and drives -1 as all ones. -/
theorem test_host_masks :
    seq State.reset .toggle 259 = .sequence [1, 9, 73] 4 ∧ seq State.reset .toggle 256 = .invalidArgument ∧
      hostPattern Config.table (-1) = 255 := by decide

/-- R7's worked example. -/
theorem test_visualize : visualize Config.table 5 = ['0', '0', '0', '0', '0', '1', '0', '1'] := by decide

/-! ### The assembler and the response notation (R40) -/

theorem test_assemble_toggle :
    assembleLine Config.table ['T', 'O', 'G', 'G', 'L', 'E', ' ', '3', ',', ' ', '1', ' ', ';', ' ', 'x'] =
      .ok (some 0x3103) := by decide

theorem test_assemble_word :
    assembleLine Config.table ['.', 'w', 'o', 'r', 'd', ' ', '0', 'x', 'F', '3', 'A', '5'] = .ok (some 0xF3A5) := by decide

theorem test_assemble_too_big :
    assembleLine Config.table ['L', 'U', 'T', 'R', 'D', ' ', '2', '5', '6'] = .error .doesNotFit := by decide

theorem test_written :
    Rsp.written Config.table ⟨.ok, 3, 0x09⟩ =
      ['-', '>', ' ', 'O', 'K', ' ', 'l', 'e', 'n', '=', '3', ' ', 'd', 'a', 't', 'a', '=', '0', 'x', '0', '9'] := by decide

/-! ### Steps -/

/-- The first step after reset runs the placed command: LUTRD 0x37 (section 2.2). -/
theorem test_step_runs_placed_word :
    ∃ t, step (State.reset.withFetchWord 16 0x9037) = .next t ∧ t.q.map (fun p => p.rsp.toWord t.cfg) = [0x00EC] ∧
      t.host.accepted = [0x9037] := ⟨_, rfl, rfl, rfl⟩

/-- Program P5, step 3: a reset edge discards pending responses. -/
theorem test_reset_discards :
    ∃ t, step (running Config.table [⟨⟨.ok, 0, 8⟩, 0⟩, ⟨⟨.ok, 0, 0xEC⟩, 2⟩] [rstIn]) = .next t ∧ t.q = [] ∧
      t.ports.respValid = false ∧ t.host.received = [] := ⟨_, rfl, rfl, rfl, rfl⟩

/-- Program P5, step 5: the response is delivered. -/
theorem test_delivery :
    ∃ t, step (running Config.table [⟨⟨.ok, 0, 0xEC⟩, 0⟩] [takeIn]) = .next t ∧ t.q = [] ∧ t.ports.respWord = 0x00EC ∧
      t.host.received = [⟨.ok, 0, 0xEC⟩] := ⟨_, rfl, rfl, rfl, rfl⟩

/-- R76: a full queue does not accept. -/
theorem test_full_queue :
    ∃ t, step (running tight [⟨⟨.ok, 0, 8⟩, 0⟩] [reqIn 0x9037]) = .next t ∧ t.ports.reqReady = false ∧
      t.host.accepted = [] := ⟨_, rfl, rfl, rfl⟩

/-- I6: dropping a waiting request is refused. -/
theorem test_dropped_request :
    step { running tight [] [idleIn] with ports := ⟨false, true, 0x9037, false, false, false, 0⟩ } =
      .refused .hostBrokeHandshake := rfl

/-! ### The hypotheses of the statements are met

One theorem for each statement of Certificates/Slice0/Obligations.lean that has hypotheses, named after it. Where a
statement has several clauses, each has its own conjunct, at a boundary of its range. -/

theorem fresh_lutIntact (c : Config) : (fresh c).LutIntact := resetOf_lutIntact c 0

theorem witness_ElaborationRefusesExactlyBadWidths :
    (0 < 8 ∧ 8 % 8 = 0) ∧ (0 = 0 ∨ 0 % 8 ≠ 0) ∧ (7 = 0 ∨ 7 % 8 ≠ 0) ∧ ∃ t, step (fresh c16) = .next t :=
  ⟨by decide, by decide, by decide, _, rfl⟩

theorem witness_DerivedConstantsAreExact :
    Config.table.width = 8 ∧ c16.width = 16 ∧ c32.width = 32 ∧ c64.width = 64 ∧ c16.width ≤ c16.width ∧
      c16.width < 2 ^ 5 := by decide

theorem witness_EveryPatternProducedIsWithinMask : 0xFFFF ≤ c16.mask := by decide

theorem witness_CommandChangesOnlyTheQueueTail :
    ∃ t, exec (.toggle 0 15) (running tight [⟨⟨.ok, 0, 8⟩, 0⟩] []) = .next t := ⟨_, rfl⟩

theorem witness_LutHoldsByteReversalsForEver :
    (∃ t, step (fresh c16) = .next t) ∧ (fresh c16).LutIntact ∧ 7 < 8 := ⟨⟨_, rfl⟩, fresh_lutIntact c16, by decide⟩

/-- A reset cycle; a cycle that accepts and delivers at one edge, with Q full; its depth. -/
theorem witness_QueueChangesOnlyByAcceptanceDeliveryReset :
    (∃ t, step (running tight [⟨⟨.ok, 0, 8⟩, 0⟩] [rstIn]) = .next t ∧ t.ports.rst = true) ∧
    (∃ t, step (running tight [⟨⟨.ok, 0, 8⟩, 0⟩] [⟨false, true, 0x9037, true⟩]) = .next t ∧ t.ports.rst = false ∧
      (t.ports.respValid && t.ports.respReady) = true ∧ (t.ports.reqValid && t.ports.reqReady) = true) ∧
    (running tight [⟨⟨.ok, 0, 8⟩, 0⟩] []).LutIntact ∧ (running tight [⟨⟨.ok, 0, 8⟩, 0⟩] []).DepthKept :=
  ⟨⟨_, rfl, rfl⟩, ⟨_, rfl, rfl, rfl, rfl⟩, fun _ => rfl, by unfold State.DepthKept; decide⟩

theorem witness_ResponseDependsOnlyOnWidthAndRequest :
    (fresh Config.table).cfg.width = (running tight [⟨⟨.ok, 0, 8⟩, 0⟩] []).cfg.width ∧ (fresh Config.table).LutIntact ∧
      (running tight [⟨⟨.ok, 0, 8⟩, 0⟩] []).LutIntact ∧ 0xFFFF < 2 ^ (fresh Config.table).cfg.reqBits :=
  ⟨rfl, fun _ => rfl, fun _ => rfl, by decide⟩

theorem witness_LanesMakeUpTheValue : 7 < 8 ∧ c16.mask < 2 ^ c16.width := by decide

/-- A lone response is delivered after its countdown, to a host that takes it. -/
theorem lone_response_delivered (r : Rsp) (w : Nat) (s : State) (hq : s.q = [⟨r, w⟩])
    (hs : s.host.script = List.replicate (w + 1) takeIn) (hw : s.waiting = false) :
    ∃ t, Host.Core.run core (w + 1) s = .next t ∧ t.host.received = s.host.received ++ [r] := by
  induction w generalizing s with
  | zero =>
    have hn : s.nextInput = takeIn := by simp [State.nextInput, hs]
    have e : step s = .next (s.edge takeIn) := by
      rw [step_eq, hn]
      simp [State.cycle, takeIn, State.wordFits, State.hostHolds, hw, State.accepts]
    exact ⟨_, run_of_step e, by simp [takeIn, State.delivers, State.respValid, hq]⟩
  | succ w ih =>
    have hn : s.nextInput = takeIn := by simp [State.nextInput, hs, List.replicate_succ]
    have e : step s = .next (s.edge takeIn) := by
      rw [step_eq, hn]
      simp [State.cycle, takeIn, State.wordFits, State.hostHolds, hw, State.accepts]
    have hd : s.delivers takeIn = false := by simp [takeIn, State.delivers, State.respValid, hq]
    obtain ⟨t, ht, h⟩ := ih (s.edge takeIn) (by simp [hd, hq, Pending.tick]) (by simp [hs])
      (by simp [State.waiting, takeIn, State.sample])
    exact ⟨t, (run_of_step e).trans ht, by rw [h]; simp [hd]⟩

/-- The first request after reset: POPCNT 0xFF. -/
theorem first_popcnt (tail : List HostInput) :
    ∃ u, step { fresh Config.table with host := ⟨reqIn 0xA0FF :: tail, [], []⟩ } = .next u ∧
      u.q = [⟨⟨.ok, 0, 8⟩, 0 + Config.extraLatency 1⟩] ∧ u.host.script = tail ∧ u.waiting = false ∧
      u.host.received = [] := by
  have hw : 0xA0FF < 2 ^ Config.table.reqBits := by decide
  obtain ⟨h, _⟩ | ⟨_, _, _, h⟩ | ⟨_, h, _⟩ := cycle_of_legal
    (s := { fresh Config.table with host := ⟨reqIn 0xA0FF :: tail, [], []⟩ }) (i := reqIn 0xA0FF)
    (.inr ⟨decide_eq_true hw, rfl⟩)
  · cases h
  · refine ⟨_, h.trans (acceptRequest_eq hw), ?_, rfl, rfl, rfl⟩
    simp only [State.respond_q, State.edge_q, wordReply, State.edge_cfg]
    rfl
  · cases h

/-- The first clause at a delivery; the second on a run from reset that delivers its first response. -/
theorem witness_ResponsesComeInAcceptanceOrder :
    (∃ s t, s.LutIntact ∧ s.InOrder ∧ step s = .next t ∧ t.host.received = [⟨.ok, 0, 8⟩] ∧ t.host.accepted = [0xA0FF]) ∧
    ∃ script n t, Host.Core.run core n { fresh Config.table with host := ⟨script, [], []⟩ } = .next t ∧
      t.host.received[0]? = some ⟨.ok, 0, 8⟩ := by
  refine ⟨⟨{ running Config.table [⟨⟨.ok, 0, 8⟩, 0⟩] [] with host := ⟨[takeIn], [0xA0FF], []⟩ }, _, fun _ => rfl,
    by unfold State.InOrder; decide, rfl, rfl, rfl⟩, ?_⟩
  obtain ⟨u, e, hq, hs, hw, hr⟩ := first_popcnt (List.replicate (0 + Config.extraLatency 1 + 1) takeIn)
  obtain ⟨t, ht, h⟩ := lone_response_delivered _ _ u hq hs hw
  exact ⟨_, _, t, (run_of_step e).trans ht, by rw [h, hr]; rfl⟩

theorem witness_RequestWordFieldsAndLayout :
    (15 < 16 ∧ 31 < 2 ^ c16.iw ∧ 0xFFFF < 2 ^ c16.width) ∧ 0x1FFFFFF < 2 ^ (c16.width + c16.iw + 4) ∧
      Config.table.width = 8 ∧ c16.width = 16 ∧ c32.width = 32 ∧ c64.width = 64 := by decide

theorem witness_ResponseWordFields :
    Rsp.Fits Config.table ⟨.illegalOp, 15, 255⟩ ∧
      Rsp.toWord Config.table ⟨.illegalOp, 15, 255⟩ = Rsp.toWord Config.table ⟨.illegalOp, 15, 255⟩ := by
  unfold Rsp.Fits
  decide

/-- The least and the greatest reserved OP. -/
theorem witness_ReservedRequestsAreAcceptedAndAnswered :
    (0x0 < 16 ∧ 0xF < 16) ∧ ∀ w ∈ [0x0FFF, 0xF000],
      (State.reset.withFetchWord 16 w).LegalInput (State.reset.withFetchWord 16 w).nextInput ∧
      (State.reset.withFetchWord 16 w).accepts (State.reset.withFetchWord 16 w).nextInput = true ∧
      isReservedOp (reqOp (State.reset.withFetchWord 16 w).cfg (State.reset.withFetchWord 16 w).nextInput.reqWord) =
        true := by
  unfold State.LegalInput
  decide

/-- A generator, TOGGLE, MIRROR and LUTRD, each with two words that differ in ignored fields only. -/
theorem witness_IgnoredFieldsChangeNothing :
    (∀ p ∈ [(0x1300, 0x13FF), (0x8005, 0x8705), (0x9012, 0x9F12), (0x3103, 0x3103), (0x0000, 0x0FFF)],
      p.1 < 2 ^ State.reset.cfg.reqBits ∧ p.2 < 2 ^ State.reset.cfg.reqBits ∧
      reqOp State.reset.cfg p.1 = reqOp State.reset.cfg p.2 ∧
      (reqOp State.reset.cfg p.1 ∈ [0x1, 0x2, 0x3, 0x4] → reqIdx State.reset.cfg p.1 = reqIdx State.reset.cfg p.2) ∧
      (reqOp State.reset.cfg p.1 ∈ [0x3, 0x8, 0xA] → reqA State.reset.cfg p.1 = reqA State.reset.cfg p.2) ∧
      (reqOp State.reset.cfg p.1 = 0x9 →
        slice (reqA State.reset.cfg p.1) 7 0 = slice (reqA State.reset.cfg p.2) 7 0)) ∧
    15 < 2 ^ Config.table.iw ∧ 255 < 2 ^ Config.table.width := by decide

theorem witness_DecodingIsTotalByOpcodeAlone :
    (List.range 16).all (fun op => reqOp Config.table (op * 4096 + 4095) == op && decide (op * 4096 + 4095 < 2 ^ Config.table.reqBits)) =
      true := by decide

theorem witness_DecodeOfEncodeGivesTheCommandBack :
    (Instr.toggle 0xFFFF 31).wellFormed c16 = true ∧ (Instr.scan 31).wellFormed c16 = true := by decide

/-- A word for each row of the three fields kept or ignored. -/
theorem witness_DecodedCommandsAreWellFormed :
    decode Config.table 0x1FFF = .ok (.sweep1 15) ∧ decode Config.table 0x3FFF = .ok (.toggle 255 15) ∧
      decode Config.table 0x8FFF = .ok (.mirror 255) ∧ decode Config.table 0x9FFF = .ok (.lutrd 0xFF) := by decide

theorem witness_AssemblerRefusesWhatDoesNotFit :
    (Instr.toggle 255 15).wellFormed Config.table = true ∧ (Instr.toggle 256 15).wellFormed Config.table = false ∧
      255 < 256 ∧ 256 ≤ 256 ∧ 0xFFFF < 2 ^ Config.table.reqBits ∧ 2 ^ Config.table.reqBits ≤ 0x10000 := by decide

theorem witness_LutrdReturnsTheLutEntry :
    (0x9012 < 2 ^ Config.table.reqBits ∧ reqOp Config.table 0x9012 = 0x9) ∧ (fresh c16).LutIntact ∧
      (fresh c16).cfg.width = 16 ∧ (fresh Config.table).LutIntact ∧ (fresh Config.table).cfg.width = 8 ∧ 255 < 256 :=
  ⟨by decide, fun _ => rfl, rfl, fun _ => rfl, rfl, by decide⟩

/-- The palindrome is 0x8001 at W = 16 (95_test_vectors.md section 2.3). -/
theorem witness_MirrorSendsEachLaneThroughTheLut :
    (0x1001234 < 2 ^ c16.reqBits ∧ reqOp c16 0x1001234 = 0x8) ∧ 1 < (fresh c16).cfg.nb ∧ (fresh c16).LutIntact ∧
      (0x8001 < 2 ^ c16.width ∧ ∀ i < c16.width, (0x8001).testBit i = (0x8001).testBit (c16.width - 1 - i)) ∧
      (fresh Config.table).LutIntact ∧ (fresh Config.table).cfg.width = 8 ∧ (fresh c16).cfg.width = 16 :=
  ⟨by decide, by decide, fun _ => rfl, by decide, fun _ => rfl, rfl, rfl⟩

theorem witness_MirrorIsTheFullBitReversal :
    (fresh c16).LutIntact ∧ 15 < (fresh c16).cfg.width ∧ 0xFFFF ≤ (fresh c16).cfg.mask :=
  ⟨fun _ => rfl, by decide, by decide⟩

/-- TOGGLE with STEP 0; the first index past the sequence; the last index of it. -/
theorem witness_GeneratorsRunOneFrame :
    (∀ w ∈ [0x3F00, 0x3303, 0x3203, 0x1800, 0x4400], w < 2 ^ Config.table.reqBits ∧
      isGeneratorOp (reqOp Config.table w) = true) ∧
    (reqOp Config.table 0x3F00 = 0x3 ∧ reqA Config.table 0x3F00 = 0) ∧
    (¬(reqOp Config.table 0x3303 = 0x3 ∧ reqA Config.table 0x3303 = 0) ∧
      sequenceLength Config.table (reqOp Config.table 0x3303) (reqA Config.table 0x3303) = reqIdx Config.table 0x3303) ∧
    sequenceLength Config.table (reqOp Config.table 0x3203) (reqA Config.table 0x3203) =
      reqIdx Config.table 0x3203 + 1 ∧
    (fresh Config.table).cfg = Config.table := by decide

theorem witness_SeqDeliversTheDocumentsSequences :
    256 % 2 ^ State.reset.cfg.width = 0 ∧ 255 % 2 ^ State.reset.cfg.width ≠ 0 ∧
      257 % 2 ^ State.reset.cfg.width ≠ 0 := by decide

theorem witness_Sweep1SweepsASingleOne :
    (0x17FF < 2 ^ Config.table.reqBits ∧ reqOp Config.table 0x17FF = 0x1) ∧ 7 < State.reset.cfg.width ∧
      State.reset.cfg.width ≤ 8 ∧ Config.table.width = 8 := by decide

theorem witness_Sweep0SweepsASingleZero :
    (0x27FF < 2 ^ Config.table.reqBits ∧ reqOp Config.table 0x27FF = 0x2) ∧ 7 < State.reset.cfg.width ∧
      State.reset.cfg.width ≤ 8 ∧ Config.table.width = 8 := by decide

theorem witness_ToggleAccumulatesEveryStepthBit :
    (0x3FFF < 2 ^ Config.table.reqBits ∧ reqOp Config.table 0x3FFF = 0x3) ∧
      (0 < 3 ∧ 2 < ceilDiv State.reset.cfg.width 3 ∧ 2 = ceilDiv State.reset.cfg.width 3 - 1) ∧
      ceilDiv State.reset.cfg.width 3 ≤ 3 ∧ 7 < State.reset.cfg.width ∧ Config.table.width ≤ 8 ∧
      Config.table.width = 8 := by decide

theorem witness_ScanGrowsARunFromTheCentre :
    (0x4FFF < 2 ^ Config.table.reqBits ∧ reqOp Config.table 0x4FFF = 0x4) ∧ 4 ≤ State.reset.cfg.width / 2 ∧
      State.reset.cfg.width / 2 + 1 ≤ 5 ∧ Config.table.width = 8 := by decide

theorem witness_NoArithmeticWraps :
    (1 ≤ 3 ∧ 2 ≤ ceilDiv Config.table.width 3 - 1) ∧ (1 ≤ 8 ∧ Config.table.width ≤ 8) ∧ 4 ≤ Config.table.center ∧
      7 ≤ Config.table.width - 1 ∧ (fresh Config.table).cfg = Config.table := by decide

theorem witness_PopcntCountsTheOnes :
    (0xAFFF < 2 ^ Config.table.reqBits ∧ reqOp Config.table 0xAFFF = 0xA) ∧ 7 < State.reset.cfg.width ∧
      State.reset.cfg.width = 8 := by decide

theorem witness_PopcountLawsOverTheOtherCommands :
    7 < State.reset.cfg.width ∧ State.reset.LutIntact ∧ 255 ≤ State.reset.cfg.mask ∧ 1 ≤ 255 ∧
      4 ≤ State.reset.cfg.center := ⟨by decide, fun _ => rfl, by decide, by decide, by decide⟩

/-- One word for each error. -/
theorem witness_ErrorResponsesLeaveNoTrace :
    (0x3F00 < 2 ^ State.reset.cfg.reqBits ∧ 0xFFFF < 2 ^ State.reset.cfg.reqBits) ∧
      AnsweredWith 0x3F00 State.reset ⟨.invalidArgument, 0, 0⟩ ∧ AnsweredWith 0xFFFF State.reset ⟨.illegalOp, 0, 0⟩ ∧
      ∃ t, acceptRequest 0xFFFF State.reset = .next t := ⟨by decide, ⟨_, rfl⟩, ⟨_, rfl⟩, _, rfl⟩

theorem witness_ReservedOpcodesGetIllegalOp :
    (∀ w ∈ [0x0000, 0xBFFF, 0xFFFF], w < 2 ^ State.reset.cfg.reqBits ∧ isReservedOp (reqOp State.reset.cfg w) = true) ∧
      State.reset.cfg.width = 8 := by decide

theorem witness_InvalidArgumentExactlyForStepZero :
    0x3F00 < 2 ^ State.reset.cfg.reqBits ∧ AnsweredWith 0x3F00 State.reset ⟨.invalidArgument, 0, 0⟩ ∧
      AnsweredWith 0x3001 State.reset ⟨.ok, 8, 1⟩ ∧ State.reset.cfg.width = 8 :=
  ⟨by decide, ⟨_, rfl⟩, ⟨_, rfl⟩, rfl⟩

theorem witness_OneStatusByPriority :
    0xFFFF < 2 ^ State.reset.cfg.reqBits ∧ AnsweredWith 0xFFFF State.reset ⟨.illegalOp, 0, 0⟩ := ⟨by decide, _, rfl⟩

theorem witness_MachineAnswersAsTheDocumentsLoops :
    (fresh c64).LutIntact ∧ 2 ^ 75 - 1 < 2 ^ (fresh c64).cfg.reqBits := ⟨fun _ => rfl, by decide⟩

theorem witness_ResetCycleEmptiesTheQueue :
    (running tight [⟨⟨.ok, 0, 8⟩, 0⟩] [rstIn]).nextInput.rst = true := rfl

/-- The run's length is the first cycle after the reset cycle. -/
theorem witness_ReadyDelayAfterReset :
    ∃ t, step (running tight [] [rstIn, idleIn]) = .next t ∧ t.ports.rst = true ∧
      ∃ u, Host.Core.run core 1 t = .next u ∧ (∀ i ∈ t.host.script.take 1, i.rst = false) ∧ u.host.accepted = [] :=
  ⟨_, rfl, rfl, _, rfl, by decide, rfl⟩

theorem witness_BootReachesReady :
    (running tight [] (rstIn :: List.replicate 3 idleIn)).host.script = rstIn :: List.replicate 3 idleIn ∧
      rstIn.rst = true ∧ tight.readyDelay < (List.replicate 3 idleIn).length ∧
      ∀ j ∈ List.replicate 3 idleIn, j.rst = false ∧ j.reqValid = false := by decide

/-- A cycle that accepts a command, and one that accepts nothing. -/
theorem witness_StepRunsTheDecodedCommand :
    ((State.reset.withFetchWord 16 0x1300).LegalInput (State.reset.withFetchWord 16 0x1300).nextInput ∧
      (State.reset.withFetchWord 16 0x1300).accepts (State.reset.withFetchWord 16 0x1300).nextInput = true ∧
      decode Config.table (State.reset.withFetchWord 16 0x1300).nextInput.reqWord = .ok (.sweep1 3)) ∧
    (State.reset.LegalInput State.reset.nextInput ∧ State.reset.nextInput.rst = false ∧
      State.reset.accepts State.reset.nextInput = false) := by
  unfold State.LegalInput
  decide

theorem witness_PlacedTableWordRunsNext :
    decodeTableWord 16 0x1300 = some (.sweep1 3) ∧ decodeTableWord 16 0xA0FF = some (.popcnt 0xFF) := by decide

/-- A legal input; a number that fits no port; a dropped request. -/
theorem witness_EveryLegalCycleHasANextState :
    State.reset.LegalInput State.reset.nextInput ∧
      ¬(running tight [] [reqIn 0x10000]).LegalInput (running tight [] [reqIn 0x10000]).nextInput ∧
      ¬({ running tight [] [idleIn] with ports := ⟨false, true, 0x9037, false, false, false, 0⟩ } : State).LegalInput
        idleIn := by
  unfold State.LegalInput
  decide

/-- A dropped request, and a changed one. -/
theorem witness_BrokenHandshakeIsRefused :
    ∀ i ∈ [idleIn, reqIn 0x9036],
      let s : State := { running tight [] [i] with ports := ⟨false, true, 0x9037, false, false, false, 0⟩ }
      s.waiting = true ∧ s.nextInput.rst = false ∧ s.wordFits s.nextInput = true ∧
        (s.nextInput.reqValid = false ∨ s.nextInput.reqWord ≠ s.ports.reqWord) := by decide

theorem witness_PresentedResponseIsHeld :
    ∃ t u, step (running tight [⟨⟨.ok, 0, 8⟩, 0⟩] [idleIn, takeIn]) = .next t ∧ t.ports.respValid = true ∧
      t.ports.respReady = false ∧ step t = .next u ∧ u.ports.rst = false :=
  ⟨_, _, rfl, rfl, rfl, rfl, rfl⟩

theorem witness_OutputsIgnoreTheOtherSidesValid :
    ∃ t u, (fresh c16).cycle idleIn = .next t ∧ (fresh c16).cycle (reqIn 0x1001234) = .next u ∧
      idleIn.rst = (reqIn 0x1001234).rst ∧ idleIn.respReady = (reqIn 0x1001234).respReady :=
  ⟨_, _, rfl, rfl, rfl, rfl⟩

/-- Q full with the freed slot reused; Q full with nothing taken. -/
theorem witness_FullQueueStopsAcceptance :
    (∃ t, step (running tight [⟨⟨.ok, 0, 8⟩, 0⟩] [takeIn]) = .next t ∧ t.ports.reqReady = true ∧
      t.ports.respValid = true) ∧
    (running tight [⟨⟨.ok, 0, 8⟩, 0⟩] []).q.length = tight.depth ∧
    ∃ t, step (running tight [⟨⟨.ok, 0, 8⟩, 0⟩] [idleIn]) = .next t ∧ t.ports.rst = false ∧ t.ports.respReady = false :=
  ⟨⟨_, rfl, rfl, rfl⟩, rfl, _, rfl, rfl, rfl⟩

/-- A request held through two cycles of a lowered `req_ready`, already waiting. -/
theorem witness_HeldRequestIsEventuallyAccepted :
    let s : State := { running tight [] (List.replicate 3 (reqIn 0x9037)) with
      reqHold := 2, ports := ⟨false, true, 0x9037, false, false, false, 0⟩ }
    s.reqHold < s.host.script.length ∧
      (∀ i ∈ s.host.script.take (s.reqHold + 1), i.rst = false ∧ i.reqValid = true ∧ i.reqWord = 0x9037) ∧
      0x9037 < 2 ^ s.cfg.reqBits ∧ s.waiting = true ∧ s.ports.reqWord = 0x9037 ∧ s.q.length < s.cfg.depth := by decide

theorem witness_HeadOfQueueIsEventuallyDelivered :
    let s := running tight [⟨⟨.ok, 0, 8⟩, 2⟩] (List.replicate 3 takeIn)
    s.q = ⟨⟨.ok, 0, 8⟩, 2⟩ :: [] ∧ 2 < s.host.script.length ∧
      (∀ i ∈ s.host.script.take 3, i.rst = false ∧ i.respReady = true) ∧ s.waiting = false ∧
      (∀ i ∈ s.host.script.take 3, i.reqValid = false) ∧ ∃ t, Host.Core.run core 3 s = .next t :=
  ⟨rfl, by decide, by decide, rfl, by decide, _, rfl⟩

/-- The last of the LATENCY - 1 cycles: with Q empty at the acceptance, and with an older response, which is presented. -/
theorem witness_NoResponseSoonerThanLatency :
    (1 ≤ 2 ∧ 2 < tight.latency ∧ 2 < slow.latency) ∧
    (∃ t v u, (running tight [] [reqIn 0x9037]).q = [] ∧
      (running tight [] [reqIn 0x9037]).accepts (running tight [] [reqIn 0x9037]).nextInput = true ∧
      step (running tight [] [reqIn 0x9037]) = .next t ∧ Host.Core.run core (2 - 1) t = .next v ∧ step v = .next u) ∧
    ∃ t v u, (running slow [⟨⟨.ok, 0, 8⟩, 0⟩] [reqIn 0x9037]).accepts (reqIn 0x9037) = true ∧
      step (running slow [⟨⟨.ok, 0, 8⟩, 0⟩] [reqIn 0x9037]) = .next t ∧
      Host.Core.run core (2 - 1) t = .next v ∧ step v = .next u ∧ u.ports.respValid = true :=
  ⟨by decide, ⟨_, _, _, rfl, rfl, rfl, rfl, rfl⟩, _, _, _, rfl, rfl, rfl, rfl, rfl⟩

/-- A state before the first reset: a meaningless response pending and presented, a record to match nothing. -/
theorem witness_FirstResetEstablishesTheInvariant :
    ∃ s : State, s.ConstantsHold ∧ ¬s.InOrder ∧ s.nextInput.rst = true ∧ ∃ t, step s = .next t := by
  refine ⟨{ running tight [⟨⟨.endOfSeq, 99, 999⟩, 0⟩] [rstIn] with
    ports := ⟨false, false, 0, false, true, true, 999999⟩ }, constantsHold_iff.2 rfl, ?_, rfl, _, rfl⟩
  unfold State.InOrder
  decide

/-- A state with a response presented and not taken, one request accepted. -/
theorem witness_EveryStepKeepsTheBlockInvariant :
    ∃ s t, State.Inv s ∧ step s = .next t ∧ s.q ≠ [] ∧ s.ports.respValid = true := by
  let s : State := { running tight [⟨⟨.ok, 0, 8⟩, 0⟩] [takeIn] with
    ports := ⟨false, false, 0, false, false, true, 8⟩, host := ⟨[takeIn], [0xA0FF], []⟩ }
  refine ⟨s, s.edge takeIn, ⟨⟨rfl, fun _ => rfl⟩, by unfold State.DepthKept; decide, ?_, by unfold State.InOrder; decide,
    fun h => (by cases h), fun _ _ => ⟨_, _, rfl, rfl, by decide⟩, fun h => (by cases h)⟩, rfl, by decide, rfl⟩
  unfold State.ResponsesFit Rsp.Fits
  decide

theorem witness_ResetStateHasTheBlockInvariant : 2 ≤ tight.readyDelay := by decide

end Sys2Proof.Machine.Tests
end

section
/-! SUPPORT. Bounds on the values the commands compute, and that every response fits the response word (R5, R32). -/

namespace Sys2Proof

/-! ### Elaboration (R2) -/

/-- A positive multiple of 8 elaborates, with that width and those parameters. -/
theorem Config.elaborate_of_valid {w : Nat} (p : Params) (h0 : 0 < w) (h8 : w % 8 = 0) :
    ∃ c, Config.elaborate w p = .ok c ∧ c.width = w ∧ c.toParams = p :=
  ⟨_, dif_pos ⟨h0, h8⟩, rfl, rfl⟩

/-- Every other width is refused. -/
theorem Config.elaborate_of_invalid {w : Nat} (p : Params) (h : w = 0 ∨ w % 8 ≠ 0) :
    Config.elaborate w p = .error .invalidConfiguration :=
  dif_neg (by omega)

namespace Config

variable (c : Config) {v : Nat}

/-! ### MASK and IW (R3, R5) -/

theorem le_mask_iff : v ≤ c.mask ↔ v < 2 ^ c.width := by
  rw [← mask_add_one, Nat.lt_succ_iff]

/-- Masking a W-bit value changes nothing. -/
theorem and_mask_of_lt (h : v < 2 ^ c.width) : v &&& c.mask = v :=
  Nat.and_two_pow_sub_one_of_lt_two_pow h

/-- IW is the least width that holds W. -/
theorem iw_le_iff (n : Nat) : c.iw ≤ n ↔ c.width < 2 ^ n :=
  Nat.log2_lt c.width_pos.ne'

/-- A number up to W fits the IDX and LEN fields. -/
theorem lt_two_pow_iw_of_le (h : v ≤ c.width) : v < 2 ^ c.iw :=
  h.trans_lt c.width_lt_two_pow_iw

end Config

namespace Machine

variable (c : Config)

/-! ### Sequence lengths are at most W (R46 to R49) -/

theorem lenToggle_le {step : Nat} (hs : 0 < step) : lenToggle c step ≤ c.width := by
  by_contra h
  have := (lt_ceilDiv hs).1 (not_le.1 h)
  exact absurd this (not_lt.2 (Nat.le_mul_of_pos_right _ hs))

theorem lenScan_le : lenScan c ≤ c.width := by
  have := c.two_mul_center
  have := c.eight_le_width
  rw [lenScan]
  omega

/-! ### Elements fit W bits (R46 to R49) -/

theorem elemSweep1_lt {n : Nat} (hn : n < c.width) : elemSweep1 n < 2 ^ c.width := by
  rw [elemSweep1, Nat.one_shiftLeft]
  exact Nat.pow_lt_pow_right (by decide) hn

theorem elemSweep0_lt {n : Nat} (hn : n < c.width) : elemSweep0 c n < 2 ^ c.width :=
  Nat.xor_lt_two_pow (c.le_mask_iff.1 le_rfl) (elemSweep1_lt c hn)

theorem elemToggle_lt {step n : Nat} (h : n * step < c.width) : elemToggle step n < 2 ^ c.width := by
  refine Nat.lt_pow_two_of_testBit _ fun i hi => Bool.eq_false_iff.2 fun hb => ?_
  obtain ⟨j, hj, rfl⟩ := (elemToggle_testBit step n i).1 hb
  have := Nat.mul_le_mul_right step hj
  omega

theorem elemScan_lt {k : Nat} (hk : k ≤ c.center) : elemScan c k < 2 ^ c.width := by
  refine Nat.lt_pow_two_of_testBit _ fun i hi => Bool.eq_false_iff.2 fun hb => ?_
  have := ((elemScan_testBit c hk i).1 hb).2
  have := c.width_pos
  omega

/-! ### The other commands' results fit W bits (R41, R42, R51) -/

/-- The mirror writes within its NB lanes, whatever the LUT holds. -/
theorem mirrorLanes_lt (m : List Host.Cell) (v : Nat) : mirrorLanes m c.nb v c.nb < 2 ^ c.width := by
  refine Nat.lt_pow_two_of_testBit _ fun i hi => Bool.eq_false_iff.2 fun hb => ?_
  have := ((mirrorLanes_testBit m le_rfl i).1 hb).2.1
  have := c.nb_mul
  omega

theorem byte_lt_two_pow_width (b : Byte) : b.toNat < 2 ^ c.width :=
  b.isLt.trans_le (Nat.pow_le_pow_right (by decide) c.eight_le_width)

/-- A count of `n` bits is at most `n`. -/
theorem popcount_le (n v : Nat) : popcount n v ≤ n := by
  induction n with
  | zero => exact le_rfl
  | succ n ih =>
    have := Bool.toNat_le (v.testBit n)
    rw [popcount]
    omega

/-! ### Responses fit the response word -/

variable {c}

/-- The generator frame answers with a response that fits, if the sequence has at most W elements and each fits. -/
theorem generatorReply_fits {len : Nat} {elem : Nat → Nat} (hlen : len ≤ c.width)
    (helem : ∀ n < len, elem n < 2 ^ c.width) (n : Nat) : (generatorReply len elem n).Fits c := by
  have hl := c.lt_two_pow_iw_of_le hlen
  obtain h | h := Nat.lt_or_ge n len
  · rw [generatorReply_of_lt elem h]
    exact ⟨hl, helem n h⟩
  · rw [generatorReply_of_le elem h]
    exact ⟨hl, Nat.two_pow_pos _⟩

/-- A response that carries no length fits if its data does. -/
theorem fits_of_data_lt {st : Status} {d : Nat} (h : d < 2 ^ c.width) : Rsp.Fits c ⟨st, 0, d⟩ :=
  ⟨Nat.two_pow_pos _, h⟩

theorem replyOf_toggle_fits (step n : Nat) (s : State) : (replyOf s (.toggle step n)).Fits s.cfg := by
  obtain rfl | hs := Nat.eq_zero_or_pos step
  · exact fits_of_data_lt (Nat.two_pow_pos _)
  · rw [replyOf, if_neg hs.ne']
    exact generatorReply_fits (lenToggle_le _ hs) (fun n hn => elemToggle_lt _ ((lt_ceilDiv hs).1 hn)) n

/-- The response of every command fits the response word, in every state and for all operands. -/
theorem replyOf_fits (s : State) (i : Instr) : (replyOf s i).Fits s.cfg := by
  cases i with
  | sweep1 n => exact generatorReply_fits le_rfl (fun _ => elemSweep1_lt _) n
  | sweep0 n => exact generatorReply_fits le_rfl (fun _ => elemSweep0_lt _) n
  | toggle step n => exact replyOf_toggle_fits step n s
  | scan n => exact generatorReply_fits (lenScan_le _) (fun _ hk => elemScan_lt _ (Nat.le_of_lt_succ hk)) n
  | mirror v => exact fits_of_data_lt (mirrorLanes_lt _ _ v)
  | lutrd b => exact fits_of_data_lt (byte_lt_two_pow_width _ _)
  | popcnt v => exact fits_of_data_lt ((popcount_le _ v).trans_lt Nat.lt_two_pow_self)

/-! ### What a host drives (R5) -/

/-- As an integer, what a host drives is the residue modulo 2^W. -/
theorem hostPattern_cast (c : Config) (x : Int) : (hostPattern c x : Int) = x % 2 ^ c.width := by
  have := Int.emod_nonneg x (Int.natCast_ne_zero.2 (Nat.two_pow_pos c.width).ne')
  rw [hostPattern, Int.toNat_of_nonneg this]
  norm_cast

theorem dvd_sub_hostPattern (c : Config) (x : Int) : (2 ^ c.width : Int) ∣ x - hostPattern c x := by
  rw [hostPattern_cast]
  exact Int.dvd_self_sub_emod

/-- A pattern is driven as it is. -/
theorem hostPattern_of_le_mask {v : Nat} (h : v ≤ c.mask) : hostPattern c v = v := by
  rw [hostPattern_natCast, Nat.mod_eq_of_lt (c.le_mask_iff.1 h)]

end Machine

end Sys2Proof
end

section
/-! The statements of 00_scope.md. -/

namespace Sys2Proof.Machine

/-- Settles O1, by the two outcomes of elaboration and `cycle_cfg`. -/
theorem elaborationRefusesExactlyBadWidths : Obligations.ElaborationRefusesExactlyBadWidths := by
  have accepted (w : Nat) (p : Params) (h0 : 0 < w) (h8 : w % 8 = 0) :
      ∃ c, Config.elaborate w p = .ok c ∧ c.width = w :=
    let ⟨c, hc, hw, _⟩ := Config.elaborate_of_valid p h0 h8
    ⟨c, hc, hw⟩
  refine ⟨fun _ p => Config.elaborate_of_valid p, fun _ p => Config.elaborate_of_invalid p,
    fun c => ⟨c.width_pos, c.width_bytes⟩, fun _ _ => cycle_cfg, fun p => ⟨?_, ?_, ?_, ?_⟩⟩
  · exact Config.elaborate_of_invalid p (.inl rfl)
  · exact Config.elaborate_of_invalid p (.inr (by decide))
  · exact accepted 8 p (by decide) (by decide)
  · exact accepted 64 p (by decide) (by decide)

/-- Settles O2: IW is the least width that holds W (`Config.iw_le_iff`), and NB and CENTER divide W exactly. -/
theorem derivedConstantsAreExact : Obligations.DerivedConstantsAreExact := by
  refine ⟨fun c => ⟨rfl, c.nb_mul, c.two_mul_center, rfl, fun _ => c.lt_two_pow_iw_of_le,
    fun n => (c.iw_le_iff n).2⟩, fun c h => ?_, fun c h => ?_, fun c h => ?_, fun c h => ?_⟩ <;>
  · simp only [Config.mask, Config.nb, Config.center, Config.iw, h]
    decide

/-- Settles O3: every response fits its word (`replyOf_fits`), and a value fits W bits exactly where it is at most MASK. -/
theorem everyPatternProducedIsWithinMask : Obligations.EveryPatternProducedIsWithinMask := by
  refine ⟨fun i s => ?_, fun c w => ?_, fun c x => ?_, fun c v => hostPattern_of_le_mask⟩
  · obtain ⟨hlen, hdata⟩ := replyOf_fits s i
    exact ⟨_, completesWith_replyOf i s, s.cfg.le_mask_iff.2 hdata, s.cfg.and_mask_of_lt hdata, hlen⟩
  · exact ⟨c.le_mask_iff.2 (reqA_lt c w), c.and_mask_of_lt (reqA_lt c w)⟩
  · exact ⟨c.le_mask_iff.2 (hostPattern_lt c x), dvd_sub_hostPattern c x⟩

end Sys2Proof.Machine
end

section
/-! SUPPORT. The document's own loops (`docSweepOnes` to `docScan`, `reverseBits`, `visualize`) give what the commands
answer: each sequence is the list of the generator's elements, and every request word is answered as `refReply` says. -/

namespace Sys2Proof.Machine

variable (c : Config)

/-! ### The generators' sequences (R46 to R49) -/

theorem docSweepOnes_eq : docSweepOnes c = (List.range (lenSweep c)).map elemSweep1 :=
  List.map_congr_left fun i _ => (Nat.one_shiftLeft i).symm

/-- Within the mask, clearing a bit is subtracting it. -/
theorem elemSweep0_eq_sub {n : Nat} (hn : n < c.width) : elemSweep0 c n = 2 ^ c.width - 1 - 2 ^ n := by
  have hlt : 2 ^ n < 2 ^ c.width := Nat.pow_lt_pow_right (by decide) hn
  refine Nat.eq_of_testBit_eq fun i => ?_
  rw [show 2 ^ c.width - 1 - 2 ^ n = 2 ^ c.width - (2 ^ n + 1) by omega, Nat.testBit_two_pow_sub_succ hlt, elemSweep0,
    Config.mask, Nat.one_shiftLeft, Nat.testBit_xor, Nat.testBit_two_pow_sub_one, Nat.testBit_two_pow]
  by_cases h : n = i
  · simp [← h, hn]
  · simp [h]

theorem docSweepZeros_eq : docSweepZeros c = (List.range (lenSweep c)).map (elemSweep0 c) :=
  List.map_congr_left fun _ hi => (elemSweep0_eq_sub c (List.mem_range.1 hi)).symm

/-- The toggle loop, entered for element `n` with the running pattern of the elements before it, gives the elements from
`n` on. -/
theorem toggleLoop_eq {width step : Nat} (hs : 0 < step) (fuel n p : Nat)
    (hp : p ||| 2 ^ (n * step) = elemToggle step n) (hf : ceilDiv width step ≤ n + fuel) :
    toggleLoop width step fuel (n * step) p = (List.range' n (ceilDiv width step - n)).map (elemToggle step) := by
  induction fuel generalizing n p with
  | zero => simp [toggleLoop, show ceilDiv width step - n = 0 from Nat.sub_eq_zero_of_le hf]
  | succ fuel ih =>
    by_cases hn : n < ceilDiv width step
    · have hnext : elemToggle step n ||| 2 ^ ((n + 1) * step) = elemToggle step (n + 1) := by
        rw [elemToggle, Nat.one_shiftLeft]
      rw [toggleLoop, if_pos ((lt_ceilDiv hs).1 hn), hp, ← Nat.succ_mul, ih _ _ hnext (by omega),
        show ceilDiv width step - n = ceilDiv width step - (n + 1) + 1 by omega, List.range'_succ, List.map_cons]
    · rw [toggleLoop, if_neg (mt (lt_ceilDiv hs).2 hn), Nat.sub_eq_zero_of_le (not_lt.1 hn)]
      rfl

theorem docToggle_eq {step : Nat} (hs : 0 < step) :
    docToggle c step = (List.range (lenToggle c step)).map (elemToggle step) := by
  have h := toggleLoop_eq (width := c.width) hs c.width 0 0 (by simp [elemToggle])
    ((lenToggle_le c hs).trans_eq (Nat.zero_add _).symm)
  rwa [Nat.zero_mul, Nat.sub_zero, ← List.range_eq_range'] at h

/-- One pass of the scan loop widens the open run around the centre to the closed one. -/
theorem scanPass_eq_elemScan {k p : Nat} (hk : k ≤ c.center)
    (hp : ∀ i, p.testBit i = true ↔ c.center - k < i ∧ i < c.center + k) :
    (if c.center + k < c.width then p ||| 2 ^ (c.center - k) ||| 2 ^ (c.center + k) else p ||| 2 ^ (c.center - k)) =
      elemScan c k := by
  have := c.two_mul_center
  refine Nat.eq_of_testBit_eq fun i => Bool.eq_iff_iff.2 ?_
  rw [elemScan_testBit c hk]
  split <;> simp only [Nat.testBit_or, Nat.testBit_two_pow, Bool.or_eq_true, decide_eq_true_eq, hp] <;> omega

/-- The scan loop, entered for element `k` with the open run of its predecessor, gives the elements from `k` on. -/
theorem scanLoop_eq (fuel k p : Nat)
    (hp : k ≤ c.center → ∀ i, p.testBit i = true ↔ c.center - k < i ∧ i < c.center + k)
    (hf : lenScan c ≤ k + fuel) :
    scanLoop c.width c.center fuel k p = (List.range' k (lenScan c - k)).map (elemScan c) := by
  have hw := c.two_mul_center
  induction fuel generalizing k p with
  | zero => simp [scanLoop, show lenScan c - k = 0 from Nat.sub_eq_zero_of_le hf]
  | succ fuel ih =>
    rw [lenScan] at hf ih ⊢
    by_cases hk : k ≤ c.center
    · have hnext : k + 1 ≤ c.center → ∀ i, (elemScan c k).testBit i = true ↔
          c.center - (k + 1) < i ∧ i < c.center + (k + 1) := fun _ i => by
        rw [elemScan_testBit c hk]
        omega
      simp only [scanLoop, if_pos hk, if_pos (Or.inl hk : k ≤ c.center ∨ _), scanPass_eq_elemScan c hk (hp hk)]
      rw [ih _ _ hnext (by omega), show c.center + 1 - k = c.center + 1 - (k + 1) + 1 by omega, List.range'_succ,
        List.map_cons]
    · rw [scanLoop, if_neg (by omega), Nat.sub_eq_zero_of_le (by omega)]
      rfl

theorem docScan_eq : docScan c = (List.range (lenScan c)).map (elemScan c) := by
  have h := scanLoop_eq c c.width 0 0 (fun _ i => by
    simp only [Nat.zero_testBit, Bool.false_eq_true, false_iff]
    omega) ((lenScan_le c).trans_eq (Nat.zero_add _).symm)
  rwa [Nat.sub_zero, ← List.range_eq_range'] at h

/-- A list answers as the generator whose elements it holds. -/
theorem listReply_map_range (len : Nat) (elem : Nat → Nat) (n : Nat) :
    listReply ((List.range len).map elem) n = generatorReply len elem n := by
  obtain h | h := Nat.lt_or_ge n len
  · simp [listReply, generatorReply_of_lt elem h, h]
  · simp [listReply, generatorReply_of_le elem h, h]

/-! ### The full bit reversal (R41 to R43) -/

/-- A reversal of one bit more moves the others up and puts the new top bit at the bottom. -/
theorem reverseBits_succ (n v : Nat) : reverseBits (n + 1) v = Nat.bit (v.testBit n) (reverseBits n v) := by
  have hmap : (List.range n).map (fun i => (v.testBit i).toNat * 2 ^ (n + 1 - 1 - i)) =
      (List.range n).map (fun i => 2 * ((v.testBit i).toNat * 2 ^ (n - 1 - i))) :=
    List.map_congr_left fun i hi => by
      have := List.mem_range.1 hi
      rw [show n + 1 - 1 - i = n - 1 - i + 1 by omega, Nat.pow_succ]
      ring
  rw [reverseBits, List.range_succ, List.map_append, List.sum_append, hmap, List.sum_map_mul_left, Nat.bit_val]
  simp [reverseBits]

theorem testBit_reverseBits (n v i : Nat) :
    (reverseBits n v).testBit i = (decide (i < n) && v.testBit (n - 1 - i)) := by
  induction n generalizing i with
  | zero => simp [reverseBits]
  | succ n ih =>
    rw [reverseBits_succ]
    cases i with
    | zero => simp
    | succ i => simp [Nat.testBit_bit_succ, ih, Nat.sub_add_eq, Nat.sub_right_comm]

/-- Bit `k` of lane `j` is bit `8j + k` of the value (R19). -/
theorem getLsbD_lane (v j : Nat) {k : Nat} (hk : k < 8) : (lane v j).getLsbD k = v.testBit (8 * j + k) := by
  rw [lane, slice, BitVec.getLsbD_ofNat, Nat.testBit_mod_two_pow, Nat.testBit_div_two_pow, Nat.add_comm k]
  simp [hk]

theorem toNat_rev8 (b : Byte) : (rev8 b).toNat = reverseBits 8 b.toNat := by
  refine Nat.eq_of_testBit_eq fun i => ?_
  rw [testBit_reverseBits, BitVec.testBit_toNat]
  by_cases hi : i < 8
  · simp only [getLsbD_rev8 b hi, hi, decide_true, Bool.true_and, BitVec.testBit_toNat]
  · simp [hi, BitVec.getLsbD_of_ge _ _ (not_lt.1 hi)]

/-- Where the table reverses bytes, the mirror's lane algorithm reverses the whole value. -/
theorem mirrorLanes_eq_reverseBits {m : List Host.Cell} (hm : ∀ b, lutRead m b = rev8 b) (v : Nat) :
    mirrorLanes m c.nb v c.nb = reverseBits c.width v := by
  have hnb := c.nb_mul
  refine Nat.eq_of_testBit_eq fun i => Bool.eq_iff_iff.2 ?_
  have hmod : i % 8 < 8 := Nat.mod_lt _ (by decide)
  rw [mirrorLanes_testBit m le_rfl, testBit_reverseBits, hm, getLsbD_rev8 _ hmod, getLsbD_lane _ _ (by omega), hnb,
    Bool.and_eq_true, decide_eq_true_eq]
  constructor
  · rintro ⟨-, hi, hb⟩
    exact ⟨hi, by rwa [show c.width - 1 - i = 8 * (c.nb - 1 - i / 8) + (7 - i % 8) by omega]⟩
  · rintro ⟨hi, hb⟩
    exact ⟨by omega, hi, by rwa [show 8 * (c.nb - 1 - i / 8) + (7 - i % 8) = c.width - 1 - i by omega]⟩

/-! ### The count of ones (R7, R51) -/

theorem popcount_eq_countP (n v : Nat) : popcount n v = (List.range n).countP v.testBit := by
  induction n with
  | zero => rfl
  | succ n ih =>
    rw [popcount, ih, List.range_succ, List.countP_append]
    cases h : v.testBit n <;> simp [h]

/-- The ones `H_visualize` writes of a pattern are those of the population count. -/
theorem count_visualize {v : Nat} (hv : v < 2 ^ c.width) : (visualize c v).count '1' = popcount c.width v := by
  have hrev : (List.range c.width).reverse = (List.range c.width).map (c.width - 1 - ·) := by
    simpa [← List.range_eq_range'] using List.reverse_range' (s := 0) (n := c.width)
  rw [popcount_eq_countP, ← List.countP_reverse, hrev, List.countP_map, visualize, hostPattern_natCast,
    Nat.mod_eq_of_lt hv, List.count, List.countP_map]
  congr 1
  funext k
  cases h : v.testBit (c.width - 1 - k) <;> simp [h]

/-! ### The response to a request word (R14, R15) -/

theorem replyOf_sweep1 (s : State) (n : Nat) : replyOf s (.sweep1 n) = listReply (docSweepOnes s.cfg) n := by
  rw [docSweepOnes_eq, listReply_map_range, replyOf]

theorem replyOf_sweep0 (s : State) (n : Nat) : replyOf s (.sweep0 n) = listReply (docSweepZeros s.cfg) n := by
  rw [docSweepZeros_eq, listReply_map_range, replyOf]

theorem replyOf_toggle (s : State) (step n : Nat) : replyOf s (.toggle step n) =
    if step = 0 then ⟨.invalidArgument, 0, 0⟩ else listReply (docToggle s.cfg step) n := by
  rw [replyOf]
  split
  · rfl
  · next h => rw [docToggle_eq _ (Nat.pos_of_ne_zero h), listReply_map_range]

theorem replyOf_scan (s : State) (n : Nat) : replyOf s (.scan n) = listReply (docScan s.cfg) n := by
  rw [docScan_eq, listReply_map_range, replyOf]

theorem replyOf_mirror {s : State} (hl : s.LutIntact) (v : Nat) :
    replyOf s (.mirror v) = ⟨.ok, 0, reverseBits s.cfg.width v⟩ := by
  rw [replyOf, mirrorLanes_eq_reverseBits _ hl]

theorem replyOf_lutrd {s : State} (hl : s.LutIntact) (b : Byte) :
    replyOf s (.lutrd b) = ⟨.ok, 0, reverseBits 8 b.toNat⟩ := by
  rw [replyOf, hl, toNat_rev8]

theorem replyOf_popcnt (s : State) {v : Nat} (hv : v < 2 ^ s.cfg.width) :
    replyOf s (.popcnt v) = ⟨.ok, 0, (visualize s.cfg v).count '1'⟩ := by
  rw [replyOf, count_visualize _ hv]

theorem toNat_byteOperand (a : Nat) : (byteOperand a).toNat = a % 256 := by
  simp [byteOperand, slice]

/-- Where the table reverses bytes, a request word that fits the port is answered as the document says. -/
theorem wordReply_eq_refReply {s : State} (hl : s.LutIntact) {w : Nat} (hw : w < 2 ^ s.cfg.reqBits) :
    wordReply s w = refReply s.cfg w := by
  have ha := reqA_lt s.cfg w
  rw [wordReply, decode_eq hw, refReply]
  generalize reqOp s.cfg w = op
  symm
  split
  · exact (replyOf_sweep1 s _).symm
  · exact (replyOf_sweep0 s _).symm
  · exact (replyOf_toggle s _ _).symm
  · exact (replyOf_scan s _).symm
  · exact (replyOf_mirror hl _).symm
  · rw [← toNat_byteOperand]
    exact (replyOf_lutrd hl _).symm
  · exact (replyOf_popcnt s ha).symm
  · simp [decodeFields, *]

/-- The document's response takes W from the instance, and nothing else. -/
theorem refReply_congr {c c' : Config} (h : c.width = c'.width) (w : Nat) : refReply c w = refReply c' w := by
  obtain ⟨p, W, _, _⟩ := c
  obtain ⟨p', W', _, _⟩ := c'
  obtain rfl : W = W' := h
  rfl

end Sys2Proof.Machine
end

section
/-! SUPPORT. The pending queue over one cycle: the responses in it and its length (R14, R76). -/

namespace Sys2Proof.Machine

/-- Q after delivery, as `countedLength` counts it where a freed slot is reused. -/
theorem length_edge_q (s : State) (i : HostInput) :
    (s.edge i).q.length = if s.delivers i then s.q.length - 1 else s.q.length := by
  rw [State.edge_q, List.length_map, apply_ite List.length, List.length_tail]

theorem length_edge_q_le (s : State) (i : HostInput) : (s.edge i).q.length ≤ s.countedLength i := by
  rw [length_edge_q, State.countedLength]
  cases s.cfg.reuseSlot <;> cases s.delivers i <;> simp

/-- An edge that accepts a request leaves Q shorter than DEPTH. -/
theorem length_edge_q_lt_of_accepts {s : State} {i : HostInput} (h : s.accepts i = true) :
    (s.edge i).q.length < s.cfg.depth := by
  simp only [State.accepts, State.reqReady, State.hasRoom, Bool.and_eq_true, decide_eq_true_eq] at h
  obtain ⟨_, _, hroom⟩ := h
  exact (length_edge_q_le s i).trans_lt hroom

/-- No cycle takes Q beyond DEPTH. -/
theorem cycle_depthKept {s t : State} {i : HostInput} (h : s.cycle i = .next t) (hs : s.DepthKept) : t.DepthKept := by
  rw [State.DepthKept] at hs ⊢
  obtain ⟨_, rfl⟩ | ⟨_, _, _, ha, _, rfl⟩ | ⟨_, _, _, _, rfl⟩ := cycle_cases h
  · simp
  · have := length_edge_q_lt_of_accepts ha
    simpa only [State.respond_q, List.length_append, State.respond_cfg, State.edge_cfg, List.length_singleton]
  · rw [length_edge_q, State.edge_cfg]
    split <;> omega

/-- The pending responses after an edge: those before it, less the head if one was delivered. -/
theorem map_rsp_edge_q (s : State) (i : HostInput) :
    (s.edge i).q.map Pending.rsp =
      if s.delivers i then (s.q.map Pending.rsp).tail else s.q.map Pending.rsp := by
  have htick : Pending.rsp ∘ Pending.tick = Pending.rsp := rfl
  rw [State.edge_q, List.map_map, htick, apply_ite (List.map Pending.rsp), List.map_tail]

/-- The pending responses after a cycle outside reset: those the edge leaves, and the answer to the accepted request. -/
theorem cycle_map_rsp_q {s t : State} {i : HostInput} (h : s.cycle i = .next t) (hr : i.rst = false)
    (hl : s.LutIntact) :
    t.q.map Pending.rsp =
      (if s.delivers i then (s.q.map Pending.rsp).tail else s.q.map Pending.rsp) ++
        if s.accepts i then [refReply s.cfg i.reqWord] else [] := by
  rw [← map_rsp_edge_q]
  obtain ⟨h1, rfl⟩ | ⟨_, _, _, ha, hw, rfl⟩ | ⟨_, _, _, ha, rfl⟩ := cycle_cases h
  · exact absurd h1 (by simp [hr])
  · have hanswer : wordReply (s.edge i) i.reqWord = refReply s.cfg i.reqWord :=
      wordReply_eq_refReply (s := s.edge i) hl hw
    simp [ha, hanswer]
  · simp [ha]

end Sys2Proof.Machine
end

section
/-! The statements of 10_state.md on the LUT, the pending queue and what a response depends on. -/

namespace Sys2Proof.Machine

/-- Settles O5, by the bits of `rev8` and `cycle_lut`. -/
theorem lutHoldsByteReversalsForEver : Obligations.LutHoldsByteReversalsForEver := by
  refine ⟨resetOf_lutIntact, fun _ _ => cycle_lut, fun s hl b => ⟨fun i hi => ?_, ?_⟩, fun s hl => ?_⟩
  · rw [hl, getLsbD_rev8 b (by omega), show 7 - (7 - i) = i by omega]
  · rw [hl, hl, rev8_rev8]
  · simp only [hl _]
    decide

/-- Settles O6: the responses in Q over one cycle (`cycle_map_rsp_q`) and its depth (`cycle_depthKept`). -/
theorem queueChangesOnlyByAcceptanceDeliveryReset : Obligations.QueueChangesOnlyByAcceptanceDeliveryReset := by
  intro s t h
  rw [step_eq] at h
  rw [cycle_ports h]
  refine ⟨fun hr => ?_, fun hr hl => ?_, cycle_depthKept h⟩
  · obtain ⟨_, rfl⟩ | ⟨hn, _⟩ | ⟨hn, _⟩ := cycle_cases h
    · rfl
    · exact absurd hr (by simp [hn])
    · exact absurd hr (by simp [hn])
  · rw [cycle_map_rsp_q h hr hl, State.delivers, State.accepts, Bool.and_comm s.nextInput.respReady]
    rfl

/-- Settles O7: every state whose LUT is intact answers with the document's response, which takes only W from it. -/
theorem responseDependsOnlyOnWidthAndRequest : Obligations.ResponseDependsOnlyOnWidthAndRequest := by
  intro s₁ s₂ hwidth h₁ h₂ w hw₁
  have hw₂ : w < 2 ^ s₂.cfg.reqBits := by
    rwa [Config.reqBits, Config.iw, hwidth] at hw₁
  refine ⟨refReply s₁.cfg w, (answeredWith_iff hw₁).2 (wordReply_eq_refReply h₁ hw₁).symm, (answeredWith_iff hw₂).2 ?_⟩
  rw [refReply_congr hwidth, wordReply_eq_refReply h₂ hw₂]

end Sys2Proof.Machine
end

section
/-! SUPPORT. The lanes of a value add up to it (R19), and the responses delivered and pending stay in the order of the
requests accepted (R25). -/

namespace Sys2Proof.Machine

/-! ### Lanes (R19) -/

theorem toNat_lane (v j : Nat) : (lane v j).toNat = v / 2 ^ (8 * j) % 2 ^ 8 := by
  simp [lane, slice]

/-- The first `n` lanes at their places make up the low `8 * n` bits. -/
theorem sum_lanes (v n : Nat) :
    ((List.range n).map fun j => (lane v j).toNat * 2 ^ (8 * j)).sum = v % 2 ^ (8 * n) := by
  induction n with
  | zero => simp [Nat.mod_one]
  | succ n ih =>
    rw [List.sum_range_succ, ih, toNat_lane, Nat.mul_succ, Nat.pow_add, Nat.mod_mul, Nat.mul_comm (2 ^ (8 * n))]

/-! ### The record of accepted requests and delivered responses (R25) -/

/-- Delivery moves the head of Q to the end of the record: the two in a row stay as they were. -/
theorem received_append_q_edge (s : State) (i : HostInput) :
    (s.edge i).host.received ++ (s.edge i).q.map Pending.rsp = s.host.received ++ s.q.map Pending.rsp := by
  rw [State.edge_received, map_rsp_edge_q]
  split
  · rw [List.append_assoc, ← List.map_tail, ← List.map_append, ← List.drop_one, List.take_append_drop]
  · rw [List.append_nil]

/-- A reset cycle empties the record; any other adds at most one request, and its answer, at the end. -/
theorem cycle_inOrder {s t : State} {i : HostInput} (h : s.cycle i = .next t) (hl : s.LutIntact) (ho : s.InOrder) :
    t.InOrder := by
  have hedge := (received_append_q_edge s i).trans ho
  obtain ⟨_, rfl⟩ | ⟨_, _, _, ha, hw, rfl⟩ | ⟨_, _, _, ha, rfl⟩ := cycle_cases h
  · rfl
  · have hanswer : wordReply (s.edge i) i.reqWord = refReply s.cfg i.reqWord :=
      wordReply_eq_refReply (s := s.edge i) hl hw
    rw [State.InOrder, State.respond_host, State.respond_q, List.map_append, ← List.append_assoc, hedge,
      State.edge_accepted, if_pos ha, List.map_append, hanswer]
    rfl
  · simpa [State.InOrder, ha] using hedge

theorem step_keeps_order {s t : State} (hl : s.LutIntact) (ho : s.InOrder) (h : step s = .next t) :
    t.LutIntact ∧ t.InOrder := by
  rw [step_eq] at h
  exact ⟨by rwa [State.LutIntact, cycle_lut h], cycle_inOrder h hl ho⟩

/-- A run keeps the constants and, where the LUT is intact, the order. -/
theorem run_keeps_order {n : Nat} {s t : State} (h : Host.Core.run core n s = .next t) (hl : s.LutIntact)
    (ho : s.InOrder) : t.InOrder ∧ t.cfg = s.cfg := by
  have hstep (u v : State) : (u.LutIntact ∧ u.InOrder) ∧ u.cfg = s.cfg → step u = .next v →
      (v.LutIntact ∧ v.InOrder) ∧ v.cfg = s.cfg := fun ⟨⟨hlu, hou⟩, hc⟩ huv =>
    ⟨step_keeps_order hlu hou huv, (cycle_cfg huv).trans hc⟩
  obtain ⟨⟨_, hot⟩, hc⟩ := run_induction hstep n s t ⟨⟨hl, ho⟩, rfl⟩ h
  exact ⟨hot, hc⟩

theorem length_accepted_of_inOrder {s : State} (ho : s.InOrder) :
    s.host.accepted.length = s.host.received.length + s.q.length := by
  simpa using (congrArg List.length ho).symm

/-- In a record that is in order, the `k`-th response delivered answers the `k`-th request accepted. -/
theorem received_answers_accepted {s : State} (ho : s.InOrder) {k : Nat} {r : Rsp}
    (hk : s.host.received[k]? = some r) : ∃ w, s.host.accepted[k]? = some w ∧ r = refReply s.cfg w := by
  have hall : (s.host.accepted.map (refReply s.cfg))[k]? = some r := by
    obtain ⟨hlt, _⟩ := List.getElem?_eq_some_iff.1 hk
    rw [← ho, List.getElem?_append_left hlt, hk]
  rw [List.getElem?_map, Option.map_eq_some_iff] at hall
  obtain ⟨w, hw, hr⟩ := hall
  exact ⟨w, hw, hr.symm⟩

end Sys2Proof.Machine
end

section
/-! The statements of 20_memory.md. -/

namespace Sys2Proof.Machine

/-- Settles O9, by the bits and the sum of the lanes (`getLsbD_lane`, `sum_lanes`). -/
theorem lanesMakeUpTheValue : Obligations.LanesMakeUpTheValue := by
  refine ⟨fun v j k => getLsbD_lane v j, fun c v hv => ?_⟩
  rw [sum_lanes, c.nb_mul, Nat.mod_eq_of_lt hv]

/-- Settles O10: every step keeps the record in order (`step_keeps_order`), and so does every run from reset, where the
record is empty. -/
theorem responsesComeInAcceptanceOrder : Obligations.ResponsesComeInAcceptanceOrder := by
  refine ⟨fun _ _ => step_keeps_order, fun c d script n t h => ?_⟩
  obtain ⟨ho, hc⟩ := run_keeps_order h (resetOf_lutIntact c d) rfl
  refine ⟨length_accepted_of_inOrder ho, fun k r hk => ?_⟩
  obtain rfl : t.cfg = c := hc
  exact received_answers_accepted ho hk

end Sys2Proof.Machine
end

section
/-! SUPPORT. A request word is its three fields, and decoding goes by OP and the fields OP reads (R31, R35, R36,
R39). -/

namespace Sys2Proof

/-! ### The request word and its fields (R31) -/

/-- The two low fields of a request word, side by side, are its bits below OP. -/
theorem concat_reqIdx_reqA (c : Config) (w : Nat) :
    concat (reqIdx c w) c.width (reqA c w) = w % 2 ^ (c.width + c.iw) := by
  rw [reqIdx_eq, reqA_eq, ← Nat.mod_mul_right_div_self, ← Nat.mod_mul_right_mod w (2 ^ c.width) (2 ^ c.iw),
    ← Nat.pow_add, concat_div_mod]

/-- A word that fits the port is put together from its own fields. -/
theorem reqWord_fields {c : Config} {w : Nat} (hw : w < 2 ^ c.reqBits) :
    reqWord c (reqOp c w) (reqIdx c w) (reqA c w) = w := by
  have hop : reqOp c w = w / 2 ^ (c.width + c.iw) := by
    rw [reqOp_eq, Nat.mod_eq_of_lt (Nat.div_lt_of_lt_mul (by rwa [← Nat.pow_add]))]
  rw [reqWord, concat_reqIdx_reqA, hop, concat_div_mod]

/-- Where the fields stand at a given width. -/
theorem fields_of_width {c : Config} {W IW : Nat} (w : Nat) (hW : c.width = W) (hIW : bitlength W = IW) :
    c.reqBits = W + IW + 4 ∧ reqOp c w = slice w (W + IW + 3) (W + IW) ∧ reqIdx c w = slice w (W + IW - 1) W ∧
      reqA c w = slice w (W - 1) 0 := by
  subst hW hIW
  exact ⟨rfl, rfl, rfl, rfl⟩

theorem reqOp_zero (c : Config) : reqOp c 0 = 0 := by
  rw [reqOp_eq, Nat.zero_div, Nat.zero_mod]

theorem byteOperand_eq (a : Nat) : byteOperand a = BitVec.ofNat 8 (a % 256) := by
  simp [byteOperand, slice]

/-! ### Decoding by OP (R35, R36, R39) -/

/-- The reserved OPs are those of no command. -/
theorem isReservedOp_iff : ∀ op < 16,
    (Machine.isReservedOp op = true ↔ op ∉ [0x1, 0x2, 0x3, 0x4, 0x8, 0x9, 0xA]) := by
  decide

theorem decodeFields_of_isReservedOp {op : Nat} (h : Machine.isReservedOp op = true) (idx a : Nat) :
    decodeFields op idx a = .error (.reservedOp op) := by
  simp only [Machine.isReservedOp, decide_eq_true_eq, List.mem_cons, List.not_mem_nil, or_false] at h
  rcases h with rfl | rfl | rfl | rfl | rfl | rfl | rfl | rfl | rfl <;> rfl

/-- Decoding depends on the fields OP reads, and on no other. -/
theorem decodeFields_congr {op idx idx' a a' : Nat} (hidx : op ∈ [0x1, 0x2, 0x3, 0x4] → idx = idx')
    (ha : op ∈ [0x3, 0x8, 0xA] → a = a') (hbyte : op = 0x9 → slice a 7 0 = slice a' 7 0) :
    decodeFields op idx a = decodeFields op idx' a' := by
  fun_cases decodeFields op idx a with
  | case1 | case2 | case4 => rw [hidx (by decide)]; rfl
  | case3 => rw [hidx (by decide), ha (by decide)]; rfl
  | case5 | case7 => rw [ha (by decide)]; rfl
  | case6 => rw [byteOperand, hbyte rfl]; rfl
  | case8 => simp [decodeFields, *]

end Sys2Proof

namespace Sys2Proof.Machine

/-- What a request does is what it decodes to. -/
theorem acceptRequest_congr {s : State} {w w' : Nat} (h : decode s.cfg w = decode s.cfg w') :
    acceptRequest w s = acceptRequest w' s := by
  rw [acceptRequest, acceptRequest, h]

/-- A request with a reserved OP is answered ILLEGAL_OP, and nothing else happens. -/
theorem answeredWith_illegalOp {s : State} {w : Nat} (hw : w < 2 ^ s.cfg.reqBits)
    (h : isReservedOp (reqOp s.cfg w) = true) : AnsweredWith w s ⟨.illegalOp, 0, 0⟩ := by
  rw [answeredWith_iff hw, wordReply, decode_eq hw, decodeFields_of_isReservedOp h]

/-- A legal step that accepts a request is the acceptance of its word, which fits the port, in the state the edge
leaves. -/
theorem step_of_accepts {s : State} (hl : s.LegalInput s.nextInput) (ha : s.accepts s.nextInput = true) :
    s.nextInput.reqWord < 2 ^ s.cfg.reqBits ∧ step s = acceptRequest s.nextInput.reqWord (s.edge s.nextInput) := by
  obtain ⟨hr, _⟩ | ⟨_, _, hw, hstep⟩ | ⟨_, hn, _⟩ := cycle_of_legal hl
  · exact absurd hr (by simp [accepts_rst ha])
  · exact ⟨hw, hstep⟩
  · exact absurd ha (by simp [hn])

end Sys2Proof.Machine
end

section
/-! The statements of 30_encoding.md on the request word, the reserved OPs and decoding. -/

namespace Sys2Proof.Machine

/-- Settles O11: a word is its fields both ways (`reqOp_reqWord` and its like, `reqWord_fields`). -/
theorem requestWordFieldsAndLayout : Obligations.RequestWordFieldsAndLayout := by
  refine ⟨fun c op idx a ho hi ha => ?_, fun c w hw => ?_, fun c w h => ?_, fun c w h => ?_, fun c w h => ?_,
    fun c w h => ?_⟩
  · exact ⟨reqWord_lt ho hi ha, reqOp_reqWord ho hi ha, reqIdx_reqWord hi ha, reqA_reqWord hi ha⟩
  · exact ⟨(reqWord_fields hw).symm, reqOp_lt c w, reqIdx_lt c w, reqA_lt c w⟩
  · exact fields_of_width (IW := 4) w h (by decide)
  · exact fields_of_width (IW := 5) w h (by decide)
  · exact fields_of_width (IW := 6) w h (by decide)
  · exact fields_of_width (IW := 7) w h (by decide)

/-- Settles O13: the accepting step (`step_of_accepts`) with the answer to a reserved OP (`answeredWith_illegalOp`). -/
theorem reservedRequestsAreAcceptedAndAnswered : Obligations.ReservedRequestsAreAcceptedAndAnswered := by
  refine ⟨isReservedOp_iff, reqOp_zero, fun _ _ _ => rfl, fun s hl ha hres => ?_⟩
  obtain ⟨hw, hstep⟩ := step_of_accepts hl ha
  rw [hstep]
  exact answeredWith_illegalOp (s := s.edge s.nextInput) hw hres

/-- Settles O14: ignored fields do not reach the decoded command (`decodeFields_congr`), and the encoder's fields are
those `reqWord` is given. -/
theorem ignoredFieldsChangeNothing : Obligations.IgnoredFieldsChangeNothing := by
  refine ⟨fun s w w' hw hw' hop hidx ha hbyte => acceptRequest_congr ?_, fun c n hn => ?_, fun c v b hv => ?_⟩
  · rw [decode_eq hw, decode_eq hw', ← hop]
    exact decodeFields_congr hidx ha hbyte
  · have h0 : 0 < 2 ^ c.width := Nat.two_pow_pos _
    exact ⟨reqA_reqWord hn h0, reqA_reqWord hn h0, reqA_reqWord hn h0⟩
  · have h0 : 0 < 2 ^ c.iw := Nat.two_pow_pos _
    have hb := byte_lt_two_pow_width c b
    exact ⟨reqIdx_reqWord h0 hv, reqIdx_reqWord h0 hv, reqIdx_reqWord h0 hb, reqA_reqWord h0 hb⟩

/-- Settles O15, by the OP of the word: each command's row of `decodeFields`, and the reserved OPs for the rest. -/
theorem decodingIsTotalByOpcodeAlone : Obligations.DecodingIsTotalByOpcodeAlone := by
  intro c w hw
  have hreserved := isReservedOp_iff _ (reqOp_lt c w)
  rw [decode_eq hw, ← byteOperand_eq]
  refine ⟨?sweep1, ?sweep0, ?toggle, ?scan, ?mirror, ?lutrd, ?popcnt,
    fun h => decodeFields_of_isReservedOp h _ _, or_iff_not_imp_right.2 hreserved.2⟩
  all_goals
    intro hop
    rw [hop]
    rfl

end Sys2Proof.Machine
end

section
/-! SUPPORT. Reversing the low bits of a number, the mirror's lanes one by one, and the LUT commands through both
(R41 to R43). -/

namespace Sys2Proof.Machine

/-! ### The full bit reversal (R43) -/

theorem reverseBits_lt (n v : Nat) : reverseBits n v < 2 ^ n :=
  Nat.lt_pow_two_of_testBit _ fun i hi => by simp [testBit_reverseBits, Nat.not_lt.2 hi]

/-- An `n`-bit number with the bits of `v` in reverse order is the reversal of `v`. -/
theorem reverseBits_eq_of_testBit {n v r : Nat} (hr : r < 2 ^ n)
    (h : ∀ i < n, r.testBit i = v.testBit (n - 1 - i)) : reverseBits n v = r := by
  refine Nat.eq_of_testBit_eq fun i => ?_
  rw [testBit_reverseBits]
  by_cases hi : i < n
  · simp [hi, h i hi]
  · simp [hi, Nat.testBit_eq_false_of_lt (hr.trans_le (Nat.pow_le_pow_right (by decide) (not_lt.1 hi)))]

theorem reverseBits_reverseBits {n v : Nat} (hv : v < 2 ^ n) : reverseBits n (reverseBits n v) = v :=
  reverseBits_eq_of_testBit hv fun i hi => by
    simp [testBit_reverseBits, show n - 1 - i < n by omega, show n - 1 - (n - 1 - i) = i by omega]

theorem reverseBits_zero (n : Nat) : reverseBits n 0 = 0 :=
  reverseBits_eq_of_testBit (Nat.two_pow_pos n) fun _ _ => by simp

theorem reverseBits_two_pow_sub_one (n : Nat) : reverseBits n (2 ^ n - 1) = 2 ^ n - 1 :=
  reverseBits_eq_of_testBit (Nat.sub_one_lt (Nat.two_pow_pos n).ne') fun i hi => by
    simp only [Nat.testBit_two_pow_sub_one, hi, show n - 1 - i < n by omega]

/-- Bit 0 goes to the top. -/
theorem reverseBits_one {n : Nat} (hn : 0 < n) : reverseBits n 1 = 2 ^ (n - 1) :=
  reverseBits_eq_of_testBit (Nat.pow_lt_pow_right (by decide) (Nat.sub_one_lt hn.ne')) fun i hi => by
    rw [Nat.testBit_two_pow, ← Nat.pow_zero 2, Nat.testBit_two_pow, decide_eq_decide]
    omega

/-- The top bit goes to bit 0. -/
theorem reverseBits_two_pow_pred {n : Nat} (hn : 0 < n) : reverseBits n (2 ^ (n - 1)) = 1 := by
  rw [← reverseBits_one hn, reverseBits_reverseBits (Nat.one_lt_two_pow hn.ne')]

/-- A bit put in at the bottom is counted, and moves the counted ones up. -/
theorem popcount_bit (n : Nat) (b : Bool) (v : Nat) : popcount (n + 1) (Nat.bit b v) = popcount n v + b.toNat := by
  induction n with
  | zero => simp [popcount]
  | succ n ih => rw [popcount, ih, Nat.testBit_bit_succ, popcount, Nat.add_right_comm]

theorem popcount_reverseBits (n v : Nat) : popcount n (reverseBits n v) = popcount n v := by
  induction n with
  | zero => rfl
  | succ n ih => rw [reverseBits_succ, popcount_bit, ih, popcount]

/-! ### The mirror's lanes (R42) -/

/-- Lane `j` of the value lands in lane `nb-1-j`, as what the LUT holds for it. -/
theorem lane_mirrorLanes (m : List Host.Cell) (v : Nat) {nb j : Nat} (hj : j < nb) :
    lane (mirrorLanes m nb v nb) (nb - 1 - j) = lutRead m (lane v j) :=
  BitVec.eq_of_getLsbD_eq fun k hk => Bool.eq_iff_iff.2 <| by
    rw [getLsbD_lane _ _ hk, mirrorLanes_testBit m le_rfl, show nb - 1 - (8 * (nb - 1 - j) + k) / 8 = j by omega,
      show (8 * (nb - 1 - j) + k) % 8 = k by omega]
    exact ⟨fun ⟨_, _, h⟩ => h, fun h => ⟨by omega, by omega, h⟩⟩

/-- With one lane the mirror is the table lookup. -/
theorem mirrorLanes_one (m : List Host.Cell) (v : Nat) :
    mirrorLanes m 1 v 1 = (lutRead m (BitVec.ofNat 8 v)).toNat := by
  have hlane : lane v 0 = BitVec.ofNat 8 v := BitVec.eq_of_toNat_eq (by simp [toNat_lane])
  simp [mirrorLanes, hlane]

/-! ### The LUT commands -/

theorem decode_mirror {c : Config} {w : Nat} (hw : w < 2 ^ c.reqBits) (hop : reqOp c w = 0x8) :
    decode c w = .ok (.mirror (reqA c w)) := by
  rw [decode_eq hw, hop]
  rfl

theorem decode_lutrd {c : Config} {w : Nat} (hw : w < 2 ^ c.reqBits) (hop : reqOp c w = 0x9) :
    decode c w = .ok (.lutrd (byteOperand (reqA c w))) := by
  rw [decode_eq hw, hop]
  rfl

/-- A request word is answered with the response of the command it decodes to. -/
theorem answeredWith_of_decode {s : State} {w : Nat} {i : Instr} (h : decode s.cfg w = .ok i) :
    AnsweredWith w s (replyOf s i) := by
  rw [AnsweredWith, acceptRequest, h]
  exact completesWith_replyOf i s

theorem completesWith_mirror {s : State} (hl : s.LutIntact) (v : Nat) :
    CompletesWith (.mirror v) s ⟨.ok, 0, reverseBits s.cfg.width v⟩ :=
  completesWith_iff.2 (replyOf_mirror hl v).symm

/-- The mirror's response, where the reversal of its operand is known. -/
theorem completesWith_mirror_of_eq {s : State} (hl : s.LutIntact) {v r : Nat} (h : reverseBits s.cfg.width v = r) :
    CompletesWith (.mirror v) s ⟨.ok, 0, r⟩ :=
  h ▸ completesWith_mirror hl v

theorem completesWith_lutrd {s : State} (hl : s.LutIntact) (b : Byte) :
    CompletesWith (.lutrd b) s ⟨.ok, 0, (rev8 b).toNat⟩ :=
  hl b ▸ completesWith_replyOf (.lutrd b) s

/-- LUTRD reads the entry of A's low byte, whatever stands in IDX and in the bits of A above it. -/
theorem answeredWith_reqWord_lutrd {s : State} (hl : s.LutIntact) {idx a : Nat} (hi : idx < 2 ^ s.cfg.iw)
    (ha : a < 2 ^ s.cfg.width) :
    AnsweredWith (reqWord s.cfg 0x9 idx a) s ⟨.ok, 0, (rev8 (byteOperand a)).toNat⟩ := by
  have hdec := decode_lutrd (reqWord_lt (by decide) hi ha) (reqOp_reqWord (by decide) hi ha)
  rw [reqA_reqWord hi ha] at hdec
  exact hl (byteOperand a) ▸ answeredWith_of_decode hdec

/-! ### Words at a given width (R31, R32) -/

theorem reqWord_of_width {c : Config} {W IW : Nat} (hW : c.width = W) (hIW : bitlength W = IW) (op idx a : Nat) :
    reqWord c op idx a = concat op (W + IW) (concat idx W a) := by
  subst hW hIW
  rfl

theorem toWord_of_width {c : Config} {W IW : Nat} (hW : c.width = W) (hIW : bitlength W = IW) (r : Rsp) :
    r.toWord c = concat r.status.code (W + IW) (concat r.len W r.data) := by
  subst hW hIW
  rfl

end Sys2Proof.Machine
end

section
/-! The statements of 40_mirror.md. -/

namespace Sys2Proof.Machine

/-- Settles O20: the command's response is the entry read, and at W = 8 the mirror is one lookup (`mirrorLanes_one`). -/
theorem lutrdReturnsTheLutEntry : Obligations.LutrdReturnsTheLutEntry := by
  refine ⟨fun c w => decode_lutrd, fun s b => completesWith_replyOf _ s, fun s hl => completesWith_lutrd hl, by decide,
    fun s hw hl => ?highBits, fun s hw a _ => ?oneLane,
    fun s hw hl => ⟨?word, completesWith_lutrd hl 0x12, ?response⟩⟩
  case highBits => exact answeredWith_reqWord_lutrd hl (Nat.two_pow_pos _) (by rw [hw]; decide)
  case oneLane =>
    refine ⟨_, completesWith_replyOf _ s, completesWith_iff.2 ?_⟩
    have hnb : s.cfg.nb = 1 := by rw [Config.nb, hw]
    rw [replyOf, replyOf, hnb, mirrorLanes_one]
  case word => exact reqWord_of_width (IW := 4) hw (by decide) 0x9 0 0x12
  case response => exact toWord_of_width (IW := 4) hw (by decide) _

/-- Settles O21: the lanes of the result (`lane_mirrorLanes`), and the corner cases by the full reversal. -/
theorem mirrorSendsEachLaneThroughTheLut : Obligations.MirrorSendsEachLaneThroughTheLut := by
  refine ⟨fun c w => decode_mirror, fun s v => ?lanes, fun s hl => ?corners, fun s hl hw v => ?oneLane,
    fun s hl hw => ⟨?word, ?value, ?response⟩⟩
  case lanes =>
    exact ⟨_, completesWith_replyOf _ s, mirrorLanes_lt s.cfg s.lut v, fun j => lane_mirrorLanes s.lut v⟩
  case corners =>
    have hpos := s.cfg.width_pos
    exact ⟨completesWith_mirror_of_eq hl (reverseBits_zero _),
      completesWith_mirror_of_eq hl (reverseBits_two_pow_sub_one _),
      completesWith_mirror_of_eq hl (reverseBits_one hpos),
      completesWith_mirror_of_eq hl (reverseBits_two_pow_pred hpos),
      fun v hv hpal => completesWith_mirror_of_eq hl (reverseBits_eq_of_testBit hv hpal)⟩
  case oneLane => exact completesWith_mirror_of_eq hl (by rw [hw, toNat_rev8])
  case word => exact reqWord_of_width (IW := 5) hw (by decide) 0x8 0 0x1234
  case value => exact completesWith_mirror_of_eq hl (by rw [hw]; decide)
  case response => exact toWord_of_width (IW := 5) hw (by decide) _

/-- Settles O22: the response is the full reversal (`completesWith_mirror`), so its bits, the involution and the count
are those of `reverseBits`. -/
theorem mirrorIsTheFullBitReversal : Obligations.MirrorIsTheFullBitReversal := by
  refine fun s hl => ⟨fun v => ⟨_, completesWith_mirror hl v, fun i hi => ?bits,
    s.cfg.le_mask_iff.2 (reverseBits_lt _ v), fun hv => ?involution, _, completesWith_replyOf _ s, ?count⟩,
    completesWith_mirror_of_eq hl (reverseBits_one s.cfg.width_pos),
    completesWith_mirror_of_eq hl (reverseBits_two_pow_pred s.cfg.width_pos)⟩
  case bits => simp [testBit_reverseBits, hi]
  case involution => exact completesWith_mirror_of_eq hl (reverseBits_reverseBits (s.cfg.le_mask_iff.1 hv))
  case count => exact completesWith_iff.2 (by rw [replyOf, popcount_reverseBits])

end Sys2Proof.Machine
end

section
/-! SUPPORT. What the generators answer (R44), their lengths, and the bits and closed forms of their elements (R46 to
R50). -/

namespace Sys2Proof.Machine

/-! ### `ceil_div` (R50) -/

theorem ceilDiv_le_iff {width step : Nat} (hs : 0 < step) (n : Nat) : ceilDiv width step ≤ n ↔ width ≤ n * step := by
  rw [← not_lt, lt_ceilDiv hs, not_lt]

theorem ceilDiv_pos {width step : Nat} (hs : 0 < step) (hw : 0 < width) : 0 < ceilDiv width step :=
  (lt_ceilDiv hs).2 (by rwa [Nat.zero_mul])

/-- `ceil_div` by the two multiples of `step` that W lies between. -/
theorem ceilDiv_eq_succ {width step n : Nat} (hlo : n * step < width) (hhi : width ≤ (n + 1) * step) :
    ceilDiv width step = n + 1 := by
  have hs : 0 < step := Nat.pos_of_ne_zero (by rintro rfl; omega)
  exact Nat.le_antisymm ((ceilDiv_le_iff hs _).2 hhi) ((lt_ceilDiv hs).2 hlo)

theorem ceilDiv_one (width : Nat) : ceilDiv width 1 = width := by
  rw [ceilDiv, Nat.add_sub_cancel, Nat.div_one]

variable (c : Config)

theorem ceilDiv_eq_one {step : Nat} (h : c.width ≤ step) : ceilDiv c.width step = 1 :=
  ceilDiv_eq_succ (by simpa using c.width_pos) (by simpa using h)

/-! ### Counting the ones of a single bit and of its complement (R46, R47) -/

theorem popcount_two_pow {n i : Nat} (hi : i < n) : popcount n (2 ^ i) = 1 := by
  have hbit : (2 ^ i).testBit = (· == i) := funext fun j => by
    rw [Nat.testBit_two_pow, Bool.beq_eq_decide_eq, decide_eq_decide, eq_comm]
  rw [popcount_eq_countP, hbit]
  exact List.count_eq_one_of_mem List.nodup_range (List.mem_range.2 hi)

/-- Where two values differ at every counted bit, each bit is counted in exactly one of them. -/
theorem popcount_add_of_complement {n v w : Nat} (h : ∀ i < n, v.testBit i = !w.testBit i) :
    popcount n v + popcount n w = n := by
  induction n with
  | zero => rfl
  | succ n ih =>
    have hbit : (v.testBit n).toNat + (w.testBit n).toNat = 1 := by
      rw [h n n.lt_succ_self]
      cases w.testBit n <;> rfl
    have hrest := ih fun i hi => h i (by omega)
    rw [popcount, popcount]
    omega

/-! ### Elements of the sweeps (R46, R47) -/

theorem elemSweep1_eq (n : Nat) : elemSweep1 n = 2 ^ n := Nat.one_shiftLeft n

theorem elemSweep0_eq_xor (n : Nat) : elemSweep0 c n = c.mask ^^^ 2 ^ n := by
  rw [elemSweep0, Nat.one_shiftLeft]

variable {c} in
/-- Every bit of the field is set but bit `n`. -/
theorem elemSweep0_testBit {n : Nat} (hn : n < c.width) (i : Nat) :
    (elemSweep0 c n).testBit i = (decide (i < c.width) && decide (i ≠ n)) := by
  rw [elemSweep0_eq_xor, Config.mask, Nat.testBit_xor, Nat.testBit_two_pow_sub_one, Nat.testBit_two_pow]
  by_cases h : n = i
  · simp [← h, hn]
  · simp [h, Ne.symm h]

variable {c} in
theorem popcount_elemSweep0 {n : Nat} (hn : n < c.width) : popcount c.width (elemSweep0 c n) = c.width - 1 := by
  have hcompl : ∀ i < c.width, (elemSweep0 c n).testBit i = !(2 ^ n).testBit i := fun i hi => by
    simp [elemSweep0_testBit hn, hi, Nat.testBit_two_pow, eq_comm]
  have hsum := popcount_add_of_complement hcompl
  rw [popcount_two_pow hn] at hsum
  omega

theorem elemSweep0_zero : elemSweep0 c 0 = c.mask - 1 := elemSweep0_eq_sub c c.width_pos

/-- The last element has all bits below the top one. -/
theorem elemSweep0_pred_width : elemSweep0 c (c.width - 1) = 2 ^ (c.width - 1) - 1 := by
  have htwo := Nat.two_pow_pred_mul_two c.width_pos
  rw [elemSweep0_eq_sub c (Nat.sub_one_lt c.width_pos.ne')]
  omega

theorem mask_div_two : c.mask / 2 = 2 ^ (c.width - 1) - 1 := by
  have htwo := Nat.two_pow_pred_mul_two c.width_pos
  rw [Config.mask]
  omega

/-! ### Elements of the toggle (R48) -/

/-- The set bits of the last element are all multiples of `step` in the field. -/
theorem elemToggle_last_testBit {step : Nat} (hs : 0 < step) (i : Nat) :
    (elemToggle step (ceilDiv c.width step - 1)).testBit i = true ↔ i % step = 0 ∧ i < c.width := by
  have hpos := ceilDiv_pos hs c.width_pos
  rw [elemToggle_testBit]
  constructor
  · rintro ⟨j, hj, rfl⟩
    exact ⟨Nat.mul_mod_left j step, (lt_ceilDiv hs).1 (by omega)⟩
  · rintro ⟨hmod, hi⟩
    have hdiv : i / step * step = i := Nat.div_mul_cancel (Nat.dvd_of_mod_eq_zero hmod)
    have hlt : i / step < ceilDiv c.width step := (lt_ceilDiv hs).2 (by rwa [hdiv])
    exact ⟨i / step, by omega, hdiv.symm⟩

theorem elemToggle_zero (step : Nat) : elemToggle step 0 = 1 := by
  rw [elemToggle, Nat.zero_mul, Nat.one_shiftLeft, Nat.pow_zero]

/-- With step 1 the set bits are a full run from bit 0. -/
theorem elemToggle_one_step (n : Nat) : elemToggle 1 n = 2 ^ (n + 1) - 1 := by
  refine Nat.eq_of_testBit_eq fun i => Bool.eq_iff_iff.2 ?_
  rw [elemToggle_testBit, Nat.testBit_two_pow_sub_one, decide_eq_true_eq]
  simp

/-- The second element has bit 0 and bit `step`. -/
theorem elemToggle_at_one {step : Nat} (hs : 0 < step) : elemToggle step 1 = 1 + 2 ^ step := by
  have hdisj := Nat.two_pow_add_eq_or_of_lt (i := step) (Nat.one_lt_two_pow hs.ne') 1
  rw [elemToggle, elemToggle_zero, Nat.one_shiftLeft, Nat.zero_add, Nat.one_mul, Nat.add_comm, Nat.or_comm]
  simpa using hdisj.symm

theorem docToggle_of_width_le {step : Nat} (h : c.width ≤ step) : docToggle c step = [1] := by
  rw [docToggle_eq c (c.width_pos.trans_le h), lenToggle, ceilDiv_eq_one c h]
  simp [elemToggle_zero]

theorem docToggle_pred_width : docToggle c (c.width - 1) = [1, 1 + 2 ^ (c.width - 1)] := by
  have h8 := c.eight_le_width
  have hs : 0 < c.width - 1 := by omega
  have hlen : ceilDiv c.width (c.width - 1) = 2 := ceilDiv_eq_succ (n := 1) (by omega) (by omega)
  rw [docToggle_eq c hs, lenToggle, hlen]
  simp [List.range_succ, elemToggle_zero, elemToggle_at_one hs]

/-! ### Elements of the scan (R49) -/

theorem elemScan_zero : elemScan c 0 = 2 ^ c.center := by
  have := c.two_mul_center
  have := c.width_pos
  refine Nat.eq_of_testBit_eq fun i => Bool.eq_iff_iff.2 ?_
  rw [elemScan_testBit c (Nat.zero_le _), Nat.testBit_two_pow, decide_eq_true_eq]
  omega

/-- One step before the end only bit 0 is missing: the first element of the sweep of a zero. -/
theorem elemScan_pred_center : elemScan c (c.center - 1) = elemSweep0 c 0 := by
  have := c.two_mul_center
  have := c.eight_le_width
  refine Nat.eq_of_testBit_eq fun i => Bool.eq_iff_iff.2 ?_
  rw [elemScan_testBit c (Nat.sub_le _ _), elemSweep0_testBit c.width_pos, Bool.and_eq_true, decide_eq_true_eq,
    decide_eq_true_eq]
  omega

theorem elemScan_center : elemScan c c.center = c.mask := by
  have := c.two_mul_center
  have := c.width_pos
  refine Nat.eq_of_testBit_eq fun i => Bool.eq_iff_iff.2 ?_
  rw [elemScan_testBit c le_rfl, Config.mask, Nat.testBit_two_pow_sub_one, decide_eq_true_eq]
  omega

/-! ### Sequences as lists -/

theorem getElem?_map_range (elem : Nat → Nat) {len n : Nat} (h : n < len) :
    ((List.range len).map elem)[n]? = some (elem n) := by
  rw [List.getElem?_map, List.getElem?_range h, Option.map_some]

theorem docSweepOnes_pairwise : (docSweepOnes c).Pairwise (· < ·) :=
  List.pairwise_map.2 (List.pairwise_lt_range.imp fun h => Nat.pow_lt_pow_right (by decide) h)

/-! ### The frame of the generators (R44) -/

variable {c}

/-- A word that fits the port decodes as its OP says. -/
theorem decode_of_reqOp {w op : Nat} (hw : w < 2 ^ c.reqBits) (hop : reqOp c w = op) :
    decode c w = decodeFields op (reqIdx c w) (reqA c w) := by
  rw [decode_eq hw, hop]

theorem completesWith_ok {i : Instr} {s : State} {len n : Nat} {elem : Nat → Nat}
    (hi : replyOf s i = generatorReply len elem n) (h : n < len) : CompletesWith i s ⟨.ok, len, elem n⟩ :=
  completesWith_iff.2 (hi.trans (generatorReply_of_lt elem h)).symm

theorem completesWith_end {i : Instr} {s : State} {len n : Nat} {elem : Nat → Nat}
    (hi : replyOf s i = generatorReply len elem n) (h : len ≤ n) : CompletesWith i s ⟨.endOfSeq, len, 0⟩ :=
  completesWith_iff.2 (hi.trans (generatorReply_of_le elem h)).symm

theorem replyOf_toggle_of_pos {step : Nat} (hs : 0 < step) (s : State) (n : Nat) :
    replyOf s (.toggle step n) = generatorReply (lenToggle s.cfg step) (elemToggle step) n :=
  if_neg hs.ne'

theorem completesWith_sweep1 {s : State} {n : Nat} (h : n < s.cfg.width) :
    CompletesWith (.sweep1 n) s ⟨.ok, s.cfg.width, 2 ^ n⟩ :=
  elemSweep1_eq n ▸ completesWith_ok rfl h

theorem completesWith_sweep0 {s : State} {n : Nat} (h : n < s.cfg.width) :
    CompletesWith (.sweep0 n) s ⟨.ok, s.cfg.width, elemSweep0 s.cfg n⟩ :=
  completesWith_ok rfl h

theorem completesWith_toggle {s : State} {step n : Nat} (hs : 0 < step) (h : n < ceilDiv s.cfg.width step) :
    CompletesWith (.toggle step n) s ⟨.ok, ceilDiv s.cfg.width step, elemToggle step n⟩ :=
  completesWith_ok (replyOf_toggle_of_pos hs s n) h

theorem completesWith_scan {s : State} {k : Nat} (h : k ≤ s.cfg.center) :
    CompletesWith (.scan k) s ⟨.ok, s.cfg.center + 1, elemScan s.cfg k⟩ :=
  completesWith_ok rfl (Nat.lt_succ_of_le h)

theorem isGeneratorOp_iff {op : Nat} : isGeneratorOp op = true ↔ op = 0x1 ∨ op = 0x2 ∨ op = 0x3 ∨ op = 0x4 := by
  simp [isGeneratorOp, or_assoc]

variable (c) in
/-- Every generator OP with a valid parameter decodes to a command that runs the frame, on a sequence of 1 to W elements
that fit W bits. -/
theorem generator_runs_frame {op a : Nat} (hop : isGeneratorOp op = true) (ha : ¬(op = 0x3 ∧ a = 0)) (n : Nat) :
    ∃ i elem, decodeFields op n a = .ok i ∧ 1 ≤ sequenceLength c op a ∧ sequenceLength c op a ≤ c.width ∧
      (∀ k < sequenceLength c op a, elem k < 2 ^ c.width) ∧
      ∀ s : State, s.cfg = c → replyOf s i = generatorReply (sequenceLength c op a) elem n := by
  obtain rfl | rfl | rfl | rfl := isGeneratorOp_iff.1 hop
  · exact ⟨.sweep1 n, elemSweep1, rfl, c.width_pos, le_rfl, fun _ => elemSweep1_lt c, fun s hs => hs ▸ rfl⟩
  · exact ⟨.sweep0 n, elemSweep0 c, rfl, c.width_pos, le_rfl, fun _ => elemSweep0_lt c, fun s hs => hs ▸ rfl⟩
  · have hs : 0 < a := Nat.pos_of_ne_zero fun h => ha ⟨rfl, h⟩
    exact ⟨.toggle a n, elemToggle a, rfl, ceilDiv_pos hs c.width_pos, lenToggle_le c hs,
      fun _ hk => elemToggle_lt c ((lt_ceilDiv hs).1 hk), fun s hc => hc ▸ replyOf_toggle_of_pos hs s n⟩
  · exact ⟨.scan n, elemScan c, rfl, Nat.succ_pos _, lenScan_le c,
      fun _ hk => elemScan_lt c (Nat.le_of_lt_succ hk), fun s hs => hs ▸ rfl⟩

end Sys2Proof.Machine
end

section
/-! The statements of 41_generators.md on the frame, each generator and the bounds. -/

namespace Sys2Proof.Machine

/-- Settles O23: a generator request is answered by the frame on its own sequence (`generator_runs_frame`). -/
theorem generatorsRunOneFrame : Obligations.GeneratorsRunOneFrame := by
  intro c w hw hop
  refine ⟨fun h3 ha s hs => ?invalid, fun hvalid => ?frame⟩
  case invalid =>
    subst hs
    have hdec : decode s.cfg w = .ok (.toggle 0 (reqIdx s.cfg w)) := ha ▸ decode_of_reqOp hw h3
    exact answeredWith_of_decode hdec
  case frame =>
    obtain ⟨i, elem, hdec, hpos, hle, hfit, hreply⟩ := generator_runs_frame c hop hvalid (reqIdx c w)
    have hans (s : State) (hs : s.cfg = c) :
        AnsweredWith w s (generatorReply (sequenceLength c (reqOp c w) (reqA c w)) elem (reqIdx c w)) :=
      hreply s hs ▸ answeredWith_of_decode (hs ▸ (decode_eq hw).trans hdec)
    refine ⟨hpos, hle, fun hn s hs => ?_, fun hn => ⟨elem (reqIdx c w), c.le_mask_iff.2 (hfit _ hn), fun s hs => ?_⟩⟩
    · exact generatorReply_of_le elem hn ▸ hans s hs
    · exact generatorReply_of_lt elem hn ▸ hans s hs

/-- Settles O25: the elements are `2 ^ n` (`completesWith_sweep1`), each a single bit. -/
theorem sweep1SweepsASingleOne : Obligations.Sweep1SweepsASingleOne := by
  refine ⟨fun c w => decode_of_reqOp, fun s n => completesWith_sweep1, fun s n => completesWith_end rfl,
    fun c n => popcount_two_pow, fun c => ⟨?length, docSweepOnes_pairwise c, fun n => getElem?_map_range _⟩,
    fun c hw => ⟨?word, ?response, ?list⟩⟩
  case length => simp [docSweepOnes]
  case word => exact reqWord_of_width (IW := 4) hw (by decide) 0x1 3 0
  case response => exact toWord_of_width (IW := 4) hw (by decide) _
  case list =>
    rw [docSweepOnes, hw]
    decide

/-- Settles O26: the bits, the closed form and the count of `elemSweep0`. -/
theorem sweep0SweepsASingleZero : Obligations.Sweep0SweepsASingleZero := by
  refine ⟨fun c w => decode_of_reqOp, fun s n hn => ⟨_, completesWith_sweep0 hn, elemSweep0_eq_sub s.cfg hn,
    elemSweep0_eq_xor s.cfg n, popcount_elemSweep0 hn, elemSweep0_testBit hn⟩, fun s n => completesWith_end rfl,
    fun s => ⟨?first, ?last, mask_div_two s.cfg⟩, fun c hw => ⟨?word, ?response, ?list⟩⟩
  case first => exact elemSweep0_zero s.cfg ▸ completesWith_sweep0 s.cfg.width_pos
  case last =>
    exact elemSweep0_pred_width s.cfg ▸ completesWith_sweep0 (Nat.sub_one_lt s.cfg.width_pos.ne')
  case word => exact reqWord_of_width (IW := 4) hw (by decide) 0x2 0 0
  case response => exact toWord_of_width (IW := 4) hw (by decide) _
  case list =>
    rw [docSweepZeros, hw]
    decide

/-- Settles O27: an index is below LEN exactly where its bit is in the field (`lt_ceilDiv`), and the document's loop
lists the elements (`docToggle_eq`). -/
theorem toggleAccumulatesEveryStepthBit : Obligations.ToggleAccumulatesEveryStepthBit := by
  refine ⟨fun c w => decode_of_reqOp, fun s n => completesWith_replyOf _ s, fun s step n hs hn => ?element,
    fun s step n hs => completesWith_end (replyOf_toggle_of_pos hs s n), fun c step hs => ?length, fun s n hn => ?one,
    fun c step => docToggle_of_width_le c, docToggle_pred_width, fun c hw => ⟨?word, ?response, ?list⟩⟩
  case element =>
    refine ⟨_, completesWith_toggle hs hn, elemToggle_testBit step n, elemToggle_lt _ ((lt_ceilDiv hs).1 hn), ?_, ?_⟩
    · exact docToggle_eq s.cfg hs ▸ getElem?_map_range _ hn
    · rintro rfl
      exact elemToggle_last_testBit s.cfg hs
  case length =>
    refine ⟨?_, (ceilDiv_le_iff hs _).1 le_rfl, (lt_ceilDiv hs).1 (Nat.sub_one_lt (ceilDiv_pos hs c.width_pos).ne')⟩
    rw [docToggle_eq c hs, List.length_map, List.length_range, lenToggle]
  case one =>
    have hlen := ceilDiv_one s.cfg.width
    have h := completesWith_toggle (s := s) Nat.one_pos (hn.trans_eq hlen.symm)
    rwa [hlen, elemToggle_one_step] at h
  case word => exact reqWord_of_width (IW := 4) hw (by decide) 0x3 2 3
  case response => exact toWord_of_width (IW := 4) hw (by decide) _
  case list =>
    rw [docToggle, hw]
    decide

/-- Settles O28: the bits of `elemScan`, and the document's loop lists the elements (`docScan_eq`). -/
theorem scanGrowsARunFromTheCentre : Obligations.ScanGrowsARunFromTheCentre := by
  refine ⟨fun c w => decode_of_reqOp, fun s k hk => ⟨_, completesWith_scan hk, elemScan_testBit s.cfg hk, ?listed⟩,
    fun s k => completesWith_end rfl, fun c => ?length, fun s => ⟨?first, ?beforeLast, ?last⟩,
    fun c hw => ⟨?word, ?response, ?list⟩⟩
  case listed => exact docScan_eq s.cfg ▸ getElem?_map_range _ (Nat.lt_succ_of_le hk)
  case length =>
    rw [docScan_eq, List.length_map, List.length_range, lenScan, Config.center]
  case first => exact elemScan_zero s.cfg ▸ completesWith_scan (Nat.zero_le _)
  case beforeLast =>
    exact elemSweep0_zero s.cfg ▸ elemScan_pred_center s.cfg ▸ completesWith_scan (Nat.sub_le _ _)
  case last => exact elemScan_center s.cfg ▸ completesWith_scan le_rfl
  case word => exact reqWord_of_width (IW := 4) hw (by decide) 0x4 2 0
  case response => exact toWord_of_width (IW := 4) hw (by decide) _
  case list =>
    rw [docScan, Config.center, hw]
    decide

/-- Settles O29: lengths by `lenToggle_le` and `lenScan_le`, elements by their bounds, every response by `replyOf_fits`. -/
theorem noArithmeticWraps : Obligations.NoArithmeticWraps := by
  intro c
  have hpos := c.width_pos
  refine ⟨fun step hs => ⟨ceilDiv_pos hs hpos, lenToggle_le c hs, ceilDiv_eq_one c⟩,
    ⟨hpos, le_rfl, Nat.succ_pos _, lenScan_le c⟩, Nat.le_sub_one_of_lt c.width_lt_two_pow_iw,
    fun step n hs hn => ?toggle, fun k hk => ⟨by omega, c.le_mask_iff.2 (elemScan_lt c hk)⟩, fun n hn => ?sweeps,
    fun i s hs => ?response, popcount_le c.width, Nat.lt_two_pow_self⟩
  case toggle =>
    have hlast : n * step < c.width := (lt_ceilDiv hs).1 (by have := ceilDiv_pos hs hpos; omega)
    exact ⟨hlast, c.le_mask_iff.2 (elemToggle_lt c hlast)⟩
  case sweeps =>
    have hlt : n < c.width := by omega
    exact ⟨elemSweep1_eq n ▸ Nat.pow_le_pow_right (by decide) hn, c.le_mask_iff.2 (elemSweep1_lt c hlt),
      c.le_mask_iff.2 (elemSweep0_lt c hlt)⟩
  case response =>
    subst hs
    exact ⟨_, completesWith_replyOf i s, s.cfg.le_mask_iff.2 (replyOf_fits s i).2⟩

end Sys2Proof.Machine
end

section
/-! SUPPORT. The population count as the size of the set of ones, and the counts of the generators' elements (R51, R52). -/

namespace Sys2Proof.Machine

/-! ### The set of ones (R51) -/

/-- A value whose ones among the low `n` bits are the members of `S` counts as many as `S` has. -/
theorem popcount_eq_card {n v : Nat} {S : Finset Nat} (h : ∀ i, i ∈ S ↔ i < n ∧ v.testBit i = true) :
    popcount n v = S.card := by
  have hS : S = (Finset.range n).filter fun i => v.testBit i = true := Finset.ext fun i => by simp [h]
  rw [hS, ← Nat.count_eq_card_filter_range, Nat.count, popcount_eq_countP]
  simp only [Bool.decide_eq_true]

theorem popcount_zero_right (n : Nat) : popcount n 0 = 0 :=
  popcount_eq_card (S := ∅) (by simp)

/-- Every bit of MASK is counted. -/
theorem popcount_two_pow_sub_one (n : Nat) : popcount n (2 ^ n - 1) = n :=
  (popcount_eq_card (S := Finset.range n) (by simp)).trans (Finset.card_range n)

/-- The bits above the field are not counted. -/
theorem popcount_mod_two_pow (n v : Nat) : popcount n (v % 2 ^ n) = popcount n v :=
  popcount_congr fun i hi => by simp [Nat.testBit_mod_two_pow, hi]

theorem popcount_and_mask (c : Config) (v : Nat) : popcount c.width (v &&& c.mask) = popcount c.width v := by
  rw [Config.mask, Nat.and_two_pow_sub_one_eq_mod, popcount_mod_two_pow]

/-! ### The counts of the toggle and the scan (R48, R49) -/

variable (c : Config)

/-- Element `n` of the toggle has one bit for each multiple of `step` up to `n * step`. -/
theorem popcount_elemToggle {step n : Nat} (hs : 0 < step) (hn : n * step < c.width) :
    popcount c.width (elemToggle step n) = n + 1 := by
  have hones : ∀ i, i ∈ (Finset.range (n + 1)).image (· * step) ↔
      i < c.width ∧ (elemToggle step n).testBit i = true := fun i => by
    rw [elemToggle_testBit, Finset.mem_image]
    constructor
    · rintro ⟨j, hj, rfl⟩
      have hjn : j ≤ n := Nat.le_of_lt_succ (Finset.mem_range.1 hj)
      exact ⟨(Nat.mul_le_mul_right step hjn).trans_lt hn, j, hjn, rfl⟩
    · rintro ⟨-, j, hj, rfl⟩
      exact ⟨j, Finset.mem_range.2 (Nat.lt_succ_of_le hj), rfl⟩
  rw [popcount_eq_card hones, Finset.card_image_of_injective _ (mul_left_injective₀ hs.ne'), Finset.card_range]

/-- Element `k` of the scan has as many ones as its run is long. -/
theorem popcount_elemScan {k : Nat} (hk : k ≤ c.center) : popcount c.width (elemScan c k) =
    min (c.width - 1) (c.center + k) - (c.center - k) + 1 := by
  have hpos := c.width_pos
  have hcenter := c.two_mul_center
  have hones : ∀ i, i ∈ Finset.Icc (c.center - k) (min (c.width - 1) (c.center + k)) ↔
      i < c.width ∧ (elemScan c k).testBit i = true := fun i => by
    rw [elemScan_testBit c hk, Finset.mem_Icc]
    omega
  rw [popcount_eq_card hones, Nat.card_Icc]
  omega

/-! ### The command -/

/-- POPCNT's response, where the count of its operand is known. -/
theorem completesWith_popcnt_of_eq {s : State} {v k : Nat} (h : popcount s.cfg.width v = k) :
    CompletesWith (.popcnt v) s ⟨.ok, 0, k⟩ :=
  h ▸ completesWith_replyOf (.popcnt v) s

end Sys2Proof.Machine
end

section
/-! The statements of 42_popcount.md. -/

namespace Sys2Proof.Machine

/-- Settles O30: the count is the size of the set of ones (`popcount_eq_card`), and sees the field's bits only. -/
theorem popcntCountsTheOnes : Obligations.PopcntCountsTheOnes := by
  refine ⟨fun c w => decode_of_reqOp, fun s v => ⟨_, completesWith_replyOf _ s, ?ones, popcount_le _ v⟩,
    fun s => ⟨?zero, ?mask, fun i hi => ⟨?oneOne, ?oneZero⟩⟩, fun s x => ⟨_, ?residue, ?masked, rfl⟩,
    fun s hw => ⟨?word, ?value, ?response⟩⟩
  case ones => exact popcount_eq_card fun i => by simp
  case zero => exact completesWith_popcnt_of_eq (popcount_zero_right _)
  case mask => exact completesWith_popcnt_of_eq (popcount_two_pow_sub_one _)
  case oneOne => exact completesWith_popcnt_of_eq (popcount_two_pow hi)
  case oneZero => exact completesWith_popcnt_of_eq (elemSweep0_eq_xor s.cfg i ▸ popcount_elemSweep0 hi)
  case residue => exact completesWith_popcnt_of_eq (popcount_mod_two_pow _ x)
  case masked => exact completesWith_popcnt_of_eq (popcount_and_mask s.cfg x)
  case word => exact reqWord_of_width (IW := 4) hw (by decide) 0xA 0 0xFF
  case value => exact completesWith_popcnt_of_eq (by rw [hw]; decide)
  case response => exact toWord_of_width (IW := 4) hw (by decide) _

/-- Settles O31: the count of each command's result, by the ones it is known to have. -/
theorem popcountLawsOverTheOtherCommands : Obligations.PopcountLawsOverTheOtherCommands := by
  refine fun s => ⟨fun n hn => ⟨⟨_, _, completesWith_sweep1 hn, ?sweep1⟩, _, _, completesWith_sweep0 hn, ?sweep0⟩,
    fun hl v _ => ⟨_, _, completesWith_mirror hl v, ?mirror, completesWith_replyOf _ s⟩, fun v hv => ?visualize,
    fun step hs => ?toggle, fun k hk => ⟨_, _, completesWith_scan hk, ?scan⟩⟩
  case sweep1 => exact completesWith_popcnt_of_eq (popcount_two_pow hn)
  case sweep0 => exact completesWith_popcnt_of_eq (popcount_elemSweep0 hn)
  case mirror => exact completesWith_popcnt_of_eq (popcount_reverseBits _ v)
  case visualize => exact completesWith_popcnt_of_eq (count_visualize _ (s.cfg.le_mask_iff.1 hv)).symm
  case toggle =>
    have hlen := ceilDiv_pos hs s.cfg.width_pos
    have hlast : ceilDiv s.cfg.width step - 1 < ceilDiv s.cfg.width step := Nat.sub_one_lt hlen.ne'
    have hcount := popcount_elemToggle s.cfg hs ((lt_ceilDiv hs).1 hlast)
    rw [Nat.sub_add_cancel hlen] at hcount
    exact ⟨_, _, completesWith_toggle hs hlast, completesWith_popcnt_of_eq hcount⟩
  case scan => exact completesWith_popcnt_of_eq (popcount_elemScan s.cfg hk)

end Sys2Proof.Machine
end

section
/-! SUPPORT. The status of a request's answer by the priority of R57, and what an answer leaves as it was (R54 to R57). -/

namespace Sys2Proof.Machine

variable {s : State} {w : Nat}

/-! ### A request has one answer (R57) -/

theorem answeredWith_wordReply (hw : w < 2 ^ s.cfg.reqBits) : AnsweredWith w s (wordReply s w) :=
  (answeredWith_iff hw).2 rfl

theorem answeredWith_unique {r r' : Rsp} (hw : w < 2 ^ s.cfg.reqBits) (h : AnsweredWith w s r)
    (h' : AnsweredWith w s r') : r = r' :=
  ((answeredWith_iff hw).1 h).trans ((answeredWith_iff hw).1 h').symm

/-! ### The answer of each row of R57 -/

/-- TOGGLE with STEP = 0 is answered INVALID_ARGUMENT, whatever its index (R56). -/
theorem answeredWith_invalidArgument (hw : w < 2 ^ s.cfg.reqBits) (hop : reqOp s.cfg w = 0x3)
    (ha : reqA s.cfg w = 0) : AnsweredWith w s ⟨.invalidArgument, 0, 0⟩ :=
  (generatorsRunOneFrame s.cfg w hw (isGeneratorOp_iff.2 (by simp [hop]))).1 hop ha s rfl

/-- A generator with a valid parameter is answered END at an index at or past its sequence's length. -/
theorem answeredWith_endOfSeq (hw : w < 2 ^ s.cfg.reqBits) (hgen : isGeneratorOp (reqOp s.cfg w) = true)
    (hvalid : ¬(reqOp s.cfg w = 0x3 ∧ reqA s.cfg w = 0))
    (hidx : sequenceLength s.cfg (reqOp s.cfg w) (reqA s.cfg w) ≤ reqIdx s.cfg w) :
    AnsweredWith w s ⟨.endOfSeq, sequenceLength s.cfg (reqOp s.cfg w) (reqA s.cfg w), 0⟩ := by
  obtain ⟨_, _, hend, _⟩ := (generatorsRunOneFrame s.cfg w hw hgen).2 hvalid
  exact hend hidx s rfl

theorem opcode_cases : ∀ op < 16,
    isReservedOp op = true ∨ isGeneratorOp op = true ∨ op = 0x8 ∨ op = 0x9 ∨ op = 0xA := by
  decide

/-- Where no other status applies, the answer is OK. -/
theorem answeredWith_ok (hw : w < 2 ^ s.cfg.reqBits) (hres : ¬isReservedOp (reqOp s.cfg w) = true)
    (hvalid : ¬(reqOp s.cfg w = 0x3 ∧ reqA s.cfg w = 0))
    (hidx : isGeneratorOp (reqOp s.cfg w) = true →
      reqIdx s.cfg w < sequenceLength s.cfg (reqOp s.cfg w) (reqA s.cfg w)) :
    ∃ l d, AnsweredWith w s ⟨.ok, l, d⟩ := by
  obtain h | hgen | hmirror | hlutrd | hpopcnt := opcode_cases _ (reqOp_lt s.cfg w)
  · exact absurd h hres
  · obtain ⟨_, _, _, hok⟩ := (generatorsRunOneFrame s.cfg w hw hgen).2 hvalid
    obtain ⟨e, _, h⟩ := hok (hidx hgen)
    exact ⟨_, e, h s rfl⟩
  · exact ⟨_, _, answeredWith_of_decode (decode_mirror hw hmirror)⟩
  · exact ⟨_, _, answeredWith_of_decode (decode_lutrd hw hlutrd)⟩
  · exact ⟨_, _, answeredWith_of_decode (decode_of_reqOp hw hpopcnt)⟩

/-! ### The status by priority (R57) -/

/-- The first status of R57's list that applies to request word `w`. The model's answers have it
(`AnsweredWith.status_eq`). -/
def statusByPriority (c : Config) (w : Nat) : Status :=
  if isReservedOp (reqOp c w) then .illegalOp
  else if reqOp c w = 0x3 ∧ reqA c w = 0 then .invalidArgument
  else if isGeneratorOp (reqOp c w) ∧ sequenceLength c (reqOp c w) (reqA c w) ≤ reqIdx c w then .endOfSeq
  else .ok

theorem statusByPriority_eq_invalidArgument_iff {c : Config} {w : Nat} :
    statusByPriority c w = .invalidArgument ↔ reqOp c w = 0x3 ∧ reqA c w = 0 := by
  unfold statusByPriority
  split_ifs with hres hzero hend
  · have hop : reqOp c w ≠ 0x3 := fun h => absurd (h ▸ hres) (by decide)
    simp [hop]
  all_goals simp [hzero]

/-- Every request has an answer with the status R57 gives it, and with LEN and DATA 0 where that is an error (R54). -/
theorem exists_answer_byPriority (hw : w < 2 ^ s.cfg.reqBits) :
    ∃ l d, AnsweredWith w s ⟨statusByPriority s.cfg w, l, d⟩ ∧
      (statusByPriority s.cfg w = .invalidArgument ∨ statusByPriority s.cfg w = .illegalOp → l = 0 ∧ d = 0) := by
  unfold statusByPriority
  split_ifs with hres hzero hend
  · exact ⟨0, 0, answeredWith_illegalOp hw hres, fun _ => ⟨rfl, rfl⟩⟩
  · exact ⟨0, 0, answeredWith_invalidArgument hw hzero.1 hzero.2, fun _ => ⟨rfl, rfl⟩⟩
  · exact ⟨_, 0, answeredWith_endOfSeq hw hend.1 hzero hend.2, by simp⟩
  · obtain ⟨l, d, h⟩ := answeredWith_ok hw hres hzero fun hgen => not_le.1 fun hle => hend ⟨hgen, hle⟩
    exact ⟨l, d, h, by simp⟩

/-- Every answer has the status R57 gives its request. -/
theorem AnsweredWith.status_eq {r : Rsp} (h : AnsweredWith w s r) (hw : w < 2 ^ s.cfg.reqBits) :
    r.status = statusByPriority s.cfg w := by
  obtain ⟨l, d, hans, _⟩ := exists_answer_byPriority hw
  rw [answeredWith_unique hw h hans]

/-- An error response carries neither LEN nor DATA (R54). -/
theorem AnsweredWith.fields_eq_zero {r : Rsp} (h : AnsweredWith w s r) (hw : w < 2 ^ s.cfg.reqBits)
    (he : r.status = .invalidArgument ∨ r.status = .illegalOp) : r.len = 0 ∧ r.data = 0 := by
  obtain ⟨l, d, hans, hzero⟩ := exists_answer_byPriority hw
  obtain rfl := answeredWith_unique hw h hans
  exact hzero he

/-! ### Answers depend on the constants alone (R15, R54) -/

theorem replyOf_congr {t : State} (hc : t.cfg = s.cfg) (hl : t.lut = s.lut) (i : Instr) :
    replyOf t i = replyOf s i := by
  cases i <;> simp only [replyOf, hc, hl]

theorem wordReply_congr {t : State} (hc : t.cfg = s.cfg) (hl : t.lut = s.lut) (w : Nat) :
    wordReply t w = wordReply s w := by
  rw [wordReply, wordReply, hc]
  split
  · exact replyOf_congr hc hl _
  · rfl

/-- A number that does not fit the port is not answered. -/
theorem not_answeredWith_of_le (hw : 2 ^ s.cfg.reqBits ≤ w) (r : Rsp) : ¬AnsweredWith w s r := by
  rintro ⟨x, hx⟩
  rw [acceptRequest, decode, if_pos hw] at hx
  cases hx

/-- Two states with the same constants answer every request alike, whatever else they hold. -/
theorem answeredWith_congr {t : State} (hc : t.cfg = s.cfg) (hl : t.lut = s.lut) (w : Nat) (r : Rsp) :
    AnsweredWith w s r ↔ AnsweredWith w t r := by
  obtain hw | hw := Nat.lt_or_ge w (2 ^ s.cfg.reqBits)
  · rw [answeredWith_iff hw, answeredWith_iff (hc ▸ hw), wordReply_congr hc hl]
  · exact iff_of_false (not_answeredWith_of_le hw r) (not_answeredWith_of_le (hc ▸ hw) r)

/-! ### Error words at a given width -/

theorem answeredWith_illegalOp_of_width {W IW : Nat} (hW : s.cfg.width = W) (hIW : bitlength W = IW)
    (hw : w < 2 ^ (W + IW + 4)) (hop : isReservedOp (slice w (W + IW + 3) (W + IW)) = true) :
    AnsweredWith w s ⟨.illegalOp, 0, 0⟩ := by
  obtain ⟨hbits, hOp, _, _⟩ := fields_of_width w hW hIW
  exact answeredWith_illegalOp (hbits ▸ hw) (hOp ▸ hop)

theorem answeredWith_invalidArgument_of_width {W IW : Nat} (hW : s.cfg.width = W) (hIW : bitlength W = IW)
    (hw : w < 2 ^ (W + IW + 4)) (hop : slice w (W + IW + 3) (W + IW) = 0x3) (ha : slice w (W - 1) 0 = 0) :
    AnsweredWith w s ⟨.invalidArgument, 0, 0⟩ := by
  obtain ⟨hbits, hOp, _, hA⟩ := fields_of_width w hW hIW
  exact answeredWith_invalidArgument (hbits ▸ hw) (hOp.trans hop) (hA.trans ha)

end Sys2Proof.Machine
end

section
/-! The statements of 60_exceptions.md. -/

namespace Sys2Proof.Machine

/-- Settles O32: accepting a request is `respond` and no more (`acceptRequest_eq`), so the constants, by which every
later request is answered (`answeredWith_congr`), stay as they are. -/
theorem errorResponsesLeaveNoTrace : Obligations.ErrorResponsesLeaveNoTrace := by
  refine fun s w e hw => ⟨fun h => h.fields_eq_zero hw, fun t ht h _ => ?_⟩
  obtain rfl := (answeredWith_iff hw).1 h
  rw [acceptRequest_eq hw] at ht
  injection ht with ht
  subst ht
  exact ⟨rfl, rfl, rfl, rfl, rfl, rfl, by simp, answeredWith_congr rfl rfl⟩

/-- Settles O33, by the answer to a reserved OP (`answeredWith_illegalOp`), at the rule's two words too. -/
theorem reservedOpcodesGetIllegalOp : Obligations.ReservedOpcodesGetIllegalOp := by
  refine ⟨fun s w => answeredWith_illegalOp, fun s hw => ⟨?zero, ?ones, ?response⟩⟩
  case zero => exact answeredWith_illegalOp_of_width (IW := 4) hw (by decide) (by decide) (by decide)
  case ones => exact answeredWith_illegalOp_of_width (IW := 4) hw (by decide) (by decide) (by decide)
  case response => exact toWord_of_width (IW := 4) hw (by decide) _

/-- Settles O34: of the statuses by priority, INVALID_ARGUMENT is that of TOGGLE with STEP = 0 and of no other request
(`statusByPriority_eq_invalidArgument_iff`). -/
theorem invalidArgumentExactlyForStepZero : Obligations.InvalidArgumentExactlyForStepZero := by
  have status_iff (s : State) (w : Nat) (r : Rsp) (hw : w < 2 ^ s.cfg.reqBits) (h : AnsweredWith w s r) :
      r.status = .invalidArgument ↔ reqOp s.cfg w = 0x3 ∧ reqA s.cfg w = 0 := by
    rw [h.status_eq hw, statusByPriority_eq_invalidArgument_iff]
  refine ⟨fun s w hw => ⟨fun h => (status_iff s w _ hw h).1 rfl,
    fun ⟨hop, ha⟩ => answeredWith_invalidArgument hw hop ha⟩, status_iff, fun s hw => ⟨?index0, ?index5, ?response⟩⟩
  case index0 => exact answeredWith_invalidArgument_of_width (IW := 4) hw (by decide) (by decide) (by decide) (by decide)
  case index5 => exact answeredWith_invalidArgument_of_width (IW := 4) hw (by decide) (by decide) (by decide) (by decide)
  case response => exact toWord_of_width (IW := 4) hw (by decide) _

/-- Settles O35: a request has one answer, and it has the status by priority (`AnsweredWith.status_eq`). -/
theorem oneStatusByPriority : Obligations.OneStatusByPriority := by
  intro s w hw
  have h := answeredWith_wordReply hw
  exact ⟨_, h, fun r' h' => answeredWith_unique hw h' h, h.status_eq hw⟩

end Sys2Proof.Machine
end

section
/-! SUPPORT. What a cycle's ports tell: the outputs of a reset cycle (R70), what a full Q needs for `req_ready`, what
`resp_word` holds while a response is presented, and which responses stay pending (R76). -/

namespace Sys2Proof.Machine

variable {s t : State} {i : HostInput}

/-! ### A reset cycle -/

theorem cycle_of_rst (h : i.rst = true) : s.cycle i = .next (s.resetEdge i) := if_pos h

theorem reqReady_of_rst (h : i.rst = true) : s.reqReady i = false := by simp [State.reqReady, h]

theorem respValid_of_rst (h : i.rst = true) : s.respValid i = false := by simp [State.respValid, h]

theorem waiting_of_rst (h : s.ports.rst = true) : s.waiting = false := by simp [State.waiting, h]

/-! ### A cycle outside reset -/

/-- A full Q has room only by a slot freed at the same edge. -/
theorem reuses_of_full_of_hasRoom (hfull : s.q.length = s.cfg.depth) (h : s.hasRoom i = true) :
    s.cfg.reuseSlot = true ∧ s.delivers i = true := by
  rw [State.hasRoom, decide_eq_true_eq, State.countedLength] at h
  split at h
  next hreuse => exact Bool.and_eq_true_iff.1 hreuse
  next => omega

/-- A presented response is the head of Q. -/
theorem presents_head (h : s.respValid i = true) :
    ∃ p rest, s.q = p :: rest ∧ s.respWord i = p.rsp.toWord s.cfg := by
  match hq : s.q with
  | [] => simp [State.respValid, hq] at h
  | p :: rest => exact ⟨p, rest, rfl, by simp [State.respWord, h, hq]⟩

/-- Where no response is delivered, every pending one stays, in order. -/
theorem cycle_keeps_pending (h : s.cycle i = .next t) (hr : i.rst = false) (hd : s.delivers i = false) :
    ∃ more, t.q.map Pending.rsp = s.q.map Pending.rsp ++ more := by
  obtain ⟨more, hq, _⟩ := cycle_q h hr
  refine ⟨more.map Pending.rsp, ?_⟩
  rw [hq, ← State.edge_q, List.map_append, map_rsp_edge_q, hd, if_neg Bool.false_ne_true]

end Sys2Proof.Machine
end

section
/-! The statements of 70_reset_and_hazards.md on the reset cycle and the full queue. -/

namespace Sys2Proof.Machine

/-- Settles O37: the step is the reset edge (`cycle_of_rst`), whose ports show both outputs at 0. -/
theorem resetCycleEmptiesTheQueue : Obligations.ResetCycleEmptiesTheQueue := by
  intro s hr
  exact ⟨_, cycle_of_rst hr, hr, reqReady_of_rst hr, respValid_of_rst hr, rfl, waiting_of_rst hr, rfl, rfl⟩

/-- Settles O46: `req_ready` needs room (`reuses_of_full_of_hasRoom`), only the head is presented (`presents_head`), and
without `resp_ready` nothing is delivered (`cycle_keeps_pending`). -/
theorem fullQueueStopsAcceptance : Obligations.FullQueueStopsAcceptance := by
  intro s t h
  rw [step_eq] at h
  rw [cycle_ports h]
  refine ⟨fun hfull hready => ?_, presents_head, fun hr hnot => cycle_keeps_pending h hr ?_⟩
  · have hroom : s.hasRoom s.nextInput = true := (Bool.and_eq_true_iff.1 hready).2
    obtain ⟨hreuse, hdelivers⟩ := reuses_of_full_of_hasRoom hfull hroom
    obtain ⟨hrespReady, hrespValid⟩ := Bool.and_eq_true_iff.1 hdelivers
    exact ⟨hreuse, hrespValid, hrespReady⟩
  · rw [State.sample_respReady] at hnot
    rw [State.delivers, hnot, Bool.false_and]

end Sys2Proof.Machine
end

section
/-! SUPPORT. What each command is encoded as and what a word decodes to, field by field (R31, R34, R36), and the response
word as its three fields (R32). -/

namespace Sys2Proof

variable {c : Config}

/-! ### Request words of commands (R31, R34, R36) -/

/-- A word put together from fields that fit decodes by those fields. -/
theorem decode_reqWord {op idx a : Nat} (ho : op < 16) (hi : idx < 2 ^ c.iw) (ha : a < 2 ^ c.width) :
    decode c (reqWord c op idx a) = decodeFields op idx a := by
  rw [decode_eq (reqWord_lt ho hi ha), reqOp_reqWord ho hi ha, reqIdx_reqWord hi ha, reqA_reqWord hi ha]

/-- What decodes is a request word. -/
theorem lt_of_decode_ok {w : Nat} {i : Instr} (h : decode c w = .ok i) : w < 2 ^ c.reqBits := by
  by_contra hw
  rw [decode, if_pos (not_lt.1 hw)] at h
  cases h

/-- A byte is the operand its zero-extension carries. -/
theorem byteOperand_toNat (b : Byte) : byteOperand b.toNat = b := by
  rw [byteOperand_eq, Nat.mod_eq_of_lt b.isLt, BitVec.ofNat_toNat, BitVec.setWidth_eq]

/-- The encoding of a well-formed command fits the port, whatever the command. -/
theorem encode_lt {i : Instr} (h : i.wellFormed c = true) : encode c i < 2 ^ c.reqBits := by
  cases i with
  | sweep1 n => exact Laws.EncodeFits.sweep1 n c h
  | sweep0 n => exact Laws.EncodeFits.sweep0 n c h
  | toggle step n => exact Laws.EncodeFits.toggle step n c h
  | scan n => exact Laws.EncodeFits.scan n c h
  | mirror v => exact Laws.EncodeFits.mirror v c h
  | lutrd b => exact Laws.EncodeFits.lutrd b c h
  | popcnt v => exact Laws.EncodeFits.popcnt v c h

theorem wellFormed_toggle_iff {step n : Nat} :
    (Instr.toggle step n).wellFormed c = true ↔ step < 2 ^ c.width ∧ n < 2 ^ c.iw := by
  simp [Instr.wellFormed, valueFits, idxFits]

/-- The IDX field an encoder keeps of a word with this OP: the commands that read none have it zero (R34, R36). -/
def keptIdx (op idx : Nat) : Nat := if op ∈ [0x1, 0x2, 0x3, 0x4] then idx else 0

/-- The A field an encoder keeps of a word with this OP: LUTRD reads its low byte only (R34, R36). -/
def keptA (op a : Nat) : Nat := if op ∈ [0x3, 0x8, 0xA] then a else if op = 0x9 then a % 256 else 0

theorem keptIdx_le (op idx : Nat) : keptIdx op idx ≤ idx := by
  unfold keptIdx
  split
  · exact le_rfl
  · exact Nat.zero_le _

theorem keptA_le (op a : Nat) : keptA op a ≤ a := by
  unfold keptA
  split_ifs
  · exact le_rfl
  · exact Nat.mod_le _ _
  · exact Nat.zero_le _

/-- A command decoded from fields that fit is well-formed, and is encoded with its OP and the fields it reads. -/
theorem wellFormed_and_encode_of_decodeFields {op idx a : Nat} {i : Instr} (hi : idx < 2 ^ c.iw)
    (ha : a < 2 ^ c.width) (h : decodeFields op idx a = .ok i) :
    i.wellFormed c = true ∧ encode c i = reqWord c op (keptIdx op idx) (keptA op a) := by
  revert h
  fun_cases decodeFields op idx a with
  | case1 | case2 | case4 => rintro ⟨⟩; exact ⟨decide_eq_true hi, rfl⟩
  | case3 => rintro ⟨⟩; exact ⟨wellFormed_toggle_iff.2 ⟨ha, hi⟩, rfl⟩
  | case5 | case7 => rintro ⟨⟩; exact ⟨decide_eq_true ha, rfl⟩
  | case6 => rintro ⟨⟩; exact ⟨rfl, by rw [encode, Machine.toNat_byteOperand]; rfl⟩
  | case8 => rintro ⟨⟩

end Sys2Proof

namespace Sys2Proof.Machine

variable {c : Config}

/-! ### Response words (R32, R37) -/

theorem Status.code_lt (st : Status) : st.code < 2 ^ 2 := by
  cases st <;> decide

theorem Status.code_injective : Function.Injective Status.code := by
  intro st st' h
  cases st <;> cases st' <;> cases h <;> rfl

/-- A response word is laid out as a request word, with STATUS, LEN and DATA for OP, IDX and A. -/
theorem toWord_eq_reqWord (r : Rsp) : r.toWord c = reqWord c r.status.code r.len r.data := rfl

variable {r : Rsp} (h : r.Fits c)
include h

theorem Rsp.Fits.toWord_lt : r.toWord c < 2 ^ c.rspBits :=
  concat_lt (Status.code_lt _) (lowFields_lt h.1 h.2)

theorem Rsp.Fits.data_field : slice (r.toWord c) (c.width - 1) 0 = r.data :=
  reqA_reqWord h.1 h.2

theorem Rsp.Fits.len_field : slice (r.toWord c) (c.width + c.iw - 1) c.width = r.len :=
  reqIdx_reqWord h.1 h.2

theorem Rsp.Fits.status_field : slice (r.toWord c) (c.width + c.iw + 1) (c.width + c.iw) = r.status.code := by
  rw [slice, Rsp.toWord, concat_div (lowFields_lt h.1 h.2), Nat.add_sub_cancel_left]
  exact Nat.mod_eq_of_lt (Status.code_lt _)

/-- Distinct responses that fit have distinct words. -/
theorem Rsp.Fits.eq_of_toWord_eq {r' : Rsp} (h' : r'.Fits c) (heq : r.toWord c = r'.toWord c) : r = r' := by
  have hstatus : r.status = r'.status := Status.code_injective (by rw [← h.status_field, heq, h'.status_field])
  have hlen : r.len = r'.len := by rw [← h.len_field, heq, h'.len_field]
  have hdata : r.data = r'.data := by rw [← h.data_field, heq, h'.data_field]
  cases r
  cases r'
  exact (Rsp.mk.injEq ..).mpr ⟨hstatus, hlen, hdata⟩

end Sys2Proof.Machine
end

section
/-! The statements of 30_encoding.md on the response word, the round trips and the assembler. -/

namespace Sys2Proof.Machine

/-- Settles O12: the response word has the request word's layout (`toWord_eq_reqWord`), so its fields are read back. -/
theorem responseWordFields : Obligations.ResponseWordFields :=
  ⟨fun _ _ h => ⟨h.toWord_lt, h.data_field, h.len_field, h.status_field⟩, ⟨rfl, rfl, rfl, rfl⟩,
    fun _ _ _ h h' => h.eq_of_toWord_eq h'⟩

/-- Settles O16, by the command: its word decodes by the fields the encoder was given (`decode_reqWord`). -/
theorem decodeOfEncodeGivesTheCommandBack : Obligations.DecodeOfEncodeGivesTheCommandBack := by
  intro c i h
  have h0i : 0 < 2 ^ c.iw := Nat.two_pow_pos _
  have h0a : 0 < 2 ^ c.width := Nat.two_pow_pos _
  cases i with
  | sweep1 n => exact decode_reqWord (by decide) (of_decide_eq_true h) h0a
  | sweep0 n => exact decode_reqWord (by decide) (of_decide_eq_true h) h0a
  | toggle step n =>
    obtain ⟨hstep, hn⟩ := wellFormed_toggle_iff.1 h
    exact decode_reqWord (by decide) hn hstep
  | scan n => exact decode_reqWord (by decide) (of_decide_eq_true h) h0a
  | mirror v => exact decode_reqWord (by decide) h0i (of_decide_eq_true h)
  | lutrd b =>
    rw [encode, decode_reqWord (by decide) h0i (byte_lt_two_pow_width c b), decodeFields, byteOperand_toNat]
  | popcnt v => exact decode_reqWord (by decide) h0i (of_decide_eq_true h)

/-- Settles O17: a decoded command is encoded with its OP and the fields it reads
(`wellFormed_and_encode_of_decodeFields`), and those are read back. -/
theorem decodedCommandsAreWellFormed : Obligations.DecodedCommandsAreWellFormed := by
  intro c w i h
  rw [decode_eq (lt_of_decode_ok h)] at h
  obtain ⟨hwf, henc⟩ := wellFormed_and_encode_of_decodeFields (reqIdx_lt c w) (reqA_lt c w) h
  have hi := (keptIdx_le (reqOp c w) _).trans_lt (reqIdx_lt c w)
  have ha := (keptA_le (reqOp c w) _).trans_lt (reqA_lt c w)
  rw [henc]
  exact ⟨hwf, reqOp_reqWord (reqOp_lt c w) hi ha, reqIdx_reqWord hi ha, reqA_reqWord hi ha⟩

/-- Settles O18, by evaluating `decode` at the eight words. -/
theorem specWordsDecodeAsWritten : Obligations.SpecWordsDecodeAsWritten := by
  unfold Obligations.SpecWordsDecodeAsWritten
  decide

/-- Settles O19: each of the assembler's three checks is exactly that the operand fits. -/
theorem assemblerRefusesWhatDoesNotFit : Obligations.AssemblerRefusesWhatDoesNotFit := by
  refine ⟨fun c i => ⟨fun h => ⟨if_pos h, encode_lt h⟩, fun h => if_neg (by simp [h])⟩,
    fun c b => ⟨fun h => ?_, fun h => if_neg (not_lt.2 h)⟩,
    fun c w => ⟨fun h => if_pos h, fun h => if_neg (not_lt.2 h)⟩⟩
  have hassemble : assemble c (.lutrd (BitVec.ofNat 8 b)) = .ok (encode c (.lutrd (BitVec.ofNat 8 b))) := if_pos rfl
  rw [assembleLutrd, if_pos h, hassemble, encode, BitVec.toNat_ofNat, Nat.mod_eq_of_lt h]

end Sys2Proof.Machine
end

section
/-! SUPPORT. Each clause of the block's invariant over one cycle: responses fit their words (R5, R32), nothing is pending
while the delay after reset runs (R72), and a presented response that is not taken stays at the head of Q (R75). -/

namespace Sys2Proof.Machine

variable {s t : State} {i : HostInput}

/-! ### When the outputs are 1 -/

theorem rst_of_respValid (h : s.respValid i = true) : i.rst = false := by
  simpa using (Bool.and_eq_true_iff.1 h).1

theorem respValid_of_nil (h : s.q = []) : s.respValid i = false := by
  simp [State.respValid, h]

/-- Outside reset a response is presented exactly where the countdown of Q's head has ended. -/
theorem respValid_of_cons {p : Pending} {rest : List Pending} (hq : s.q = p :: rest) (hr : i.rst = false) :
    s.respValid i = (p.wait == 0) := by
  simp [State.respValid, hq, hr]

theorem delivers_of_respValid_eq_false (h : s.respValid i = false) : s.delivers i = false := by
  simp [State.delivers, h]

theorem reqReady_of_reqHold_ne (h : s.reqHold ≠ 0) : s.reqReady i = false := by
  simp [State.reqReady, h]

theorem accepts_of_reqReady_eq_false (h : s.reqReady i = false) : s.accepts i = false := by
  simp [State.accepts, h]

theorem reqHold_of_accepts (h : s.accepts i = true) : s.reqHold = 0 := by
  by_contra hne
  simp [accepts_of_reqReady_eq_false (reqReady_of_reqHold_ne hne)] at h

/-! ### The clauses of the invariant -/

theorem cycle_constantsHold (h : s.cycle i = .next t) (hs : s.ConstantsHold) : t.ConstantsHold :=
  constantsHold_iff.2 ((cycle_lut h).trans (constantsHold_iff.1 hs))

/-- The answer to every request word fits the response word. -/
theorem wordReply_fits (s : State) (w : Nat) : (wordReply s w).Fits s.cfg := by
  unfold wordReply
  split
  · exact replyOf_fits s _
  · exact fits_of_data_lt (Nat.two_pow_pos _)

/-- What an edge leaves pending, and what it delivers, was pending before. -/
theorem edge_responsesFit (hs : s.ResponsesFit) : (s.edge i).ResponsesFit := by
  obtain ⟨hq, hreceived⟩ := hs
  have hleft : ∀ p ∈ (if s.delivers i then s.q.tail else s.q), p.rsp.Fits s.cfg := fun p hp => by
    split at hp
    · exact hq p (List.mem_of_mem_tail hp)
    · exact hq p hp
  constructor
  · simpa using hleft
  · intro r hr
    obtain hr | hr := List.mem_append.1 hr
    · exact hreceived r hr
    · split at hr
      · obtain ⟨p, hp, rfl⟩ := List.mem_map.1 hr
        exact hq p (List.mem_of_mem_take hp)
      · cases hr

theorem cycle_responsesFit (h : s.cycle i = .next t) (hs : s.ResponsesFit) : t.ResponsesFit := by
  obtain ⟨_, rfl⟩ | ⟨_, _, _, _, _, rfl⟩ | ⟨_, _, _, _, rfl⟩ := cycle_cases h
  · simp [State.ResponsesFit]
  · obtain ⟨hq, hreceived⟩ := edge_responsesFit (i := i) hs
    refine ⟨fun p hp => ?_, hreceived⟩
    obtain hp | hp := List.mem_append.1 hp
    · exact hq p hp
    · rw [List.mem_singleton.1 hp]
      exact wordReply_fits (s.edge i) i.reqWord
  · exact edge_responsesFit hs

/-- The delay drawn in a reset cycle is within READY_DELAY. -/
theorem resetEdge_reqHold_le (s : State) (i : HostInput) : (s.resetEdge i).reqHold ≤ s.cfg.readyDelay :=
  Nat.le_of_lt_succ (Nat.mod_lt _ (Nat.succ_pos _))

/-- While the delay after reset runs, every edge takes one cycle off it. -/
theorem edge_reqHold_of_starting (hs : s.starting = true) (hd : s.reqHold ≠ 0) :
    (s.edge i).reqHold = s.reqHold - 1 := by
  simp [State.nextHold, hs, hd]

theorem cycle_startKept (h : s.cycle i = .next t) (hs : s.StartKept) : t.StartKept := by
  intro hstart
  obtain ⟨_, rfl⟩ | ⟨_, _, _, ha, _, rfl⟩ | ⟨_, _, _, ha, rfl⟩ := cycle_cases h
  · exact ⟨rfl, rfl, rfl, resetEdge_reqHold_le s i⟩
  · simp [reqHold_of_accepts ha] at hstart
  · simp only [State.edge_starting, Bool.and_eq_true, bne_iff_ne] at hstart
    obtain ⟨hstart, hd⟩ := hstart
    obtain ⟨hq, haccepted, hreceived, hle⟩ := hs hstart
    have hdelivers := delivers_of_respValid_eq_false (respValid_of_nil (i := i) hq)
    refine ⟨by simp [hq], by simp [haccepted, ha], by simp [hreceived, hdelivers], ?_⟩
    rw [edge_reqHold_of_starting hstart hd]
    exact (Nat.sub_le _ _).trans hle

/-- Whatever the state before: a response this cycle presents, and the host does not take, is still the head of Q. -/
theorem cycle_presentedKept (h : s.cycle i = .next t) : t.PresentedKept := by
  rw [State.PresentedKept, cycle_ports h]
  intro hvalid hready
  have hr := rst_of_respValid hvalid
  have hdelivers : s.delivers i = false := Bool.and_eq_false_iff.2 (.inl hready)
  obtain ⟨p, rest, hq, hword⟩ := presents_head hvalid
  obtain ⟨more, htq, _⟩ := cycle_q h hr
  have hwait : p.wait = 0 := by simpa [respValid_of_cons hq hr] using hvalid
  exact ⟨p.tick, rest.map Pending.tick ++ more, by simp [htq, hdelivers, hq], by simp [hwait],
    by rw [cycle_cfg h]; exact hword⟩

theorem cycle_resetQuiet (h : s.cycle i = .next t) : t.ResetQuiet := by
  rw [State.ResetQuiet, cycle_ports h]
  exact fun hr => ⟨reqReady_of_rst hr, respValid_of_rst hr⟩

/-! ### The invariant -/

/-- A state with an empty Q and record, both outputs 0 and a delay within READY_DELAY has the invariant if the constants
hold. -/
theorem inv_of_afterReset (hc : s.ConstantsHold) (hq : s.q = []) (ha : s.host.accepted = [])
    (hd : s.host.received = []) (hhold : s.reqHold ≤ s.cfg.readyDelay) (hready : s.ports.reqReady = false)
    (hvalid : s.ports.respValid = false) : s.Inv where
  constants := hc
  depth := by simp [State.DepthKept, hq]
  fit := by simp [State.ResponsesFit, hq, hd]
  order := by simp [State.InOrder, hq, ha, hd]
  start _ := ⟨hq, ha, hd, hhold⟩
  presented := by simp [State.PresentedKept, hvalid]
  quiet _ := ⟨hready, hvalid⟩

theorem inv_resetEdge (hc : s.ConstantsHold) (hr : i.rst = true) : (s.resetEdge i).Inv :=
  inv_of_afterReset ⟨hc.lutWf, hc.lut⟩ rfl rfl rfl (resetEdge_reqHold_le s i) (reqReady_of_rst hr) (respValid_of_rst hr)

theorem inv_resetOf (c : Config) {d : Nat} (hd : d ≤ c.readyDelay) : (State.resetOf c d).Inv :=
  inv_of_afterReset (constantsHold_iff.2 rfl) rfl rfl rfl hd rfl rfl

/-- Every cycle keeps the invariant, clause by clause. -/
theorem cycle_inv (h : s.cycle i = .next t) (hs : s.Inv) : t.Inv where
  constants := cycle_constantsHold h hs.constants
  depth := cycle_depthKept h hs.depth
  fit := cycle_responsesFit h hs.fit
  order := cycle_inOrder h hs.constants.lut hs.order
  start := cycle_startKept h hs.start
  presented := cycle_presentedKept h
  quiet := cycle_resetQuiet h

end Sys2Proof.Machine
end

section
/-! The statements on the block's invariant, and on the response held (10_state.md, 70_reset_and_hazards.md). -/

namespace Sys2Proof.Machine

/-- Settles O51: each clause of the invariant is kept by a cycle (`cycle_inv`). -/
theorem everyStepKeepsTheBlockInvariant : Obligations.EveryStepKeepsTheBlockInvariant :=
  fun _ _ hs h => cycle_inv h hs

/-- Settles O50: no cycle writes the constants, and a reset cycle leaves the rest of the invariant nothing to fail on
(`inv_resetEdge`). -/
theorem firstResetEstablishesTheInvariant : Obligations.FirstResetEstablishesTheInvariant :=
  fun _ hc => ⟨hc.lut, fun _ h => ⟨cycle_constantsHold h hc, cycle_cfg h⟩,
    fun hr => ⟨_, cycle_of_rst hr, inv_resetEdge hc hr, rfl⟩⟩

/-- Settles O52, by the state after reset of any configuration (`inv_resetOf`). -/
theorem resetStateHasTheBlockInvariant : Obligations.ResetStateHasTheBlockInvariant :=
  ⟨inv_resetOf _ (Nat.zero_le _), fun c _ => inv_resetOf c⟩

/-- Settles O8, by the fields of `State.resetOf`. -/
theorem resetStateValues : Obligations.ResetStateValues :=
  ⟨rfl, fun c d => ⟨rfl, resetOf_lutIntact c d, rfl, rfl, rfl, rfl⟩⟩

/-- Settles O44: the response is still the head of Q (`cycle_presentedKept`), its countdown over, so the next cycle
presents it. -/
theorem presentedResponseIsHeld : Obligations.PresentedResponseIsHeld := by
  intro s t u hst hvalid hready htu hr
  rw [step_eq] at hst htu
  obtain ⟨p, rest, hq, hwait, hword⟩ := cycle_presentedKept hst hvalid hready
  rw [cycle_ports htu] at hr ⊢
  have hvalid' : t.respValid t.nextInput = true := by simp [respValid_of_cons hq hr, hwait]
  obtain ⟨p', rest', hq', hword'⟩ := presents_head hvalid'
  obtain ⟨rfl, rfl⟩ := List.cons.inj (hq.symm.trans hq')
  exact ⟨hvalid', hword'.trans hword.symm⟩

end Sys2Proof.Machine
end

section
/-! SUPPORT. The host procedure SEQ against a command that answers from a list (R44, R45). -/

namespace Sys2Proof.Machine

variable {s : State}

/-- The response read off Q after a request is accepted is the request's. -/
theorem replyTo_eq {w : Nat} (hw : w < 2 ^ s.cfg.reqBits) : s.replyTo w = some (wordReply s w) := by
  simp [State.replyTo, acceptRequest_eq hw]

/-- A word put together from fields that fit is answered as the command those fields make. -/
theorem replyTo_reqWord {op idx a : Nat} {i : Instr} (ho : op < 16) (hi : idx < 2 ^ s.cfg.iw)
    (ha : a < 2 ^ s.cfg.width) (hdec : decodeFields op idx a = .ok i) :
    s.replyTo (reqWord s.cfg op idx a) = some (replyOf s i) := by
  rw [replyTo_eq (reqWord_lt ho hi ha), wordReply, decode_reqWord ho hi ha, hdec]

/-! ### The length of each sequence (R46 to R49) -/

theorem length_docSweepOnes (c : Config) : (docSweepOnes c).length = c.width := by simp [docSweepOnes]

theorem length_docSweepZeros (c : Config) : (docSweepZeros c).length = c.width := by simp [docSweepZeros]

theorem length_docToggle (c : Config) {step : Nat} (hs : 0 < step) :
    (docToggle c step).length = ceilDiv c.width step := by
  simp [docToggle_eq c hs, lenToggle]

theorem length_docScan (c : Config) : (docScan c).length = c.width / 2 + 1 := by
  simp [docScan_eq, lenScan, Config.center]

/-! ### The loop of SEQ (R45) -/

/-- SEQ at index `n`, with the first `n` elements collected, collects the rest and stops one command past the last. -/
theorem seqLoop_eq {g : Gen} {step : Nat} {l : List Nat}
    (hreply : ∀ n < 2 ^ s.cfg.iw, s.replyTo (reqWord s.cfg g.opcode n (g.operand s.cfg step)) = some (listReply l n))
    {fuel n : Nat} (hn : n ≤ l.length) (hfuel : l.length < n + fuel) (hfit : n + fuel ≤ 2 ^ s.cfg.iw) :
    seqLoop s g step fuel n (l.take n) = .sequence l (l.length + 1) := by
  induction fuel generalizing n with
  | zero => omega
  | succ fuel ih =>
    rw [seqLoop, hreply n (by omega)]
    obtain hlt | rfl := Nat.lt_or_eq_of_le hn
    · simp only [listReply, List.getElem?_eq_getElem hlt, List.take_concat_get']
      exact ih hlt (by omega) (by omega)
    · simp [listReply]

/-- Against a generator that answers from a list no longer than W, SEQ gives that list. -/
theorem seq_eq {g : Gen} {step : Nat} {l : List Nat} (hl : l.length ≤ s.cfg.width)
    (hreply : ∀ n < 2 ^ s.cfg.iw, s.replyTo (reqWord s.cfg g.opcode n (g.operand s.cfg step)) = some (listReply l n)) :
    seq s g step = .sequence l (l.length + 1) := by
  have hlt := s.cfg.lt_two_pow_iw_of_le hl
  exact seqLoop_eq hreply (Nat.zero_le _) (by omega) (by omega)

end Sys2Proof.Machine
end

section
/-! The statements on every command at once: its frame (10_state.md), the document's loops and SEQ (41_generators.md). -/

namespace Sys2Proof.Machine

/-- Settles O4: a command does nothing but respond (`exec_eq`), and `respond` writes Q and the draw counter only. -/
theorem commandChangesOnlyTheQueueTail : Obligations.CommandChangesOnlyTheQueueTail := by
  intro i s t h
  rw [exec_eq] at h
  obtain rfl := Host.Outcome.next.inj h
  exact ⟨rfl, fun _ => rfl, rfl, rfl, rfl, rfl, rfl, _, rfl⟩

/-- Settles O36: the one answer of a request word is the document's (`wordReply_eq_refReply`). -/
theorem machineAnswersAsTheDocumentsLoops : Obligations.MachineAnswersAsTheDocumentsLoops :=
  fun _ _ hl hw => (answeredWith_iff hw).2 (wordReply_eq_refReply hl hw).symm

/-- Settles O24: each generator answers from the document's list (`replyOf_sweep1` and its like), which SEQ collects
(`seq_eq`); TOGGLE with a masked STEP of 0 is refused at the first command. -/
theorem seqDeliversTheDocumentsSequences : Obligations.SeqDeliversTheDocumentsSequences := by
  intro s step
  have h0 : 0 < 2 ^ s.cfg.width := Nat.two_pow_pos _
  have hmod : step % 2 ^ s.cfg.width < 2 ^ s.cfg.width := Nat.mod_lt _ h0
  have htoggle (n : Nat) (hn : n < 2 ^ s.cfg.iw) :
      s.replyTo (reqWord s.cfg Gen.toggle.opcode n (Gen.toggle.operand s.cfg step)) =
        some (replyOf s (.toggle (step % 2 ^ s.cfg.width) n)) := by
    rw [Gen.operand, hostPattern_natCast]
    exact replyTo_reqWord (by decide) hn hmod rfl
  refine ⟨?sweep1, ?sweep0, ?scan, fun hzero => ?stepZero, fun hne => ?toggle⟩
  case sweep1 =>
    rw [← length_docSweepOnes s.cfg]
    refine seq_eq (length_docSweepOnes _).le fun n hn => ?_
    rw [← replyOf_sweep1 s]
    exact replyTo_reqWord (by decide) hn h0 rfl
  case sweep0 =>
    rw [← length_docSweepZeros s.cfg]
    refine seq_eq (length_docSweepZeros _).le fun n hn => ?_
    rw [← replyOf_sweep0 s]
    exact replyTo_reqWord (by decide) hn h0 rfl
  case scan =>
    have hlen := length_docScan s.cfg
    rw [show s.cfg.width / 2 + 2 = (docScan s.cfg).length + 1 by omega]
    refine seq_eq (hlen.trans_le (lenScan_le s.cfg)) fun n hn => ?_
    rw [← replyOf_scan s]
    exact replyTo_reqWord (by decide) hn h0 rfl
  case stepZero =>
    obtain ⟨fuel, hfuel⟩ := Nat.exists_eq_succ_of_ne_zero (Nat.two_pow_pos s.cfg.iw).ne'
    rw [seq, hfuel, seqLoop, htoggle 0 (Nat.two_pow_pos _), hzero]
    rfl
  case toggle =>
    have hpos := Nat.pos_of_ne_zero hne
    rw [← length_docToggle s.cfg hpos]
    refine seq_eq ((length_docToggle _ hpos).trans_le (lenToggle_le _ hpos)) fun n hn => ?_
    rw [htoggle n hn, replyOf_toggle, if_neg hne]

end Sys2Proof.Machine
end

section
/-! SUPPORT. Legal and illegal cycles, which inputs the outputs depend on (R75, R76), and the cycle of a placed request
(log entry 17). -/

namespace Sys2Proof.Machine

variable {s t : State} {i j : HostInput}

/-! ### Legal and illegal cycles (R75, R80) -/

theorem cycle_of_not_wordFits (hr : i.rst = false) (h : s.wordFits i = false) :
    s.cycle i = .refused .notARequestWord := by
  simp [State.cycle, hr, h]

theorem cycle_of_not_hostHolds (hr : i.rst = false) (hfit : s.wordFits i = true) (h : s.hostHolds i = false) :
    s.cycle i = .refused .hostBrokeHandshake := by
  simp [State.cycle, hr, hfit, h]

theorem exists_next_of_legal (h : s.LegalInput i) : ∃ t, s.cycle i = .next t := by
  obtain ⟨_, hcycle⟩ | ⟨_, _, hw, hcycle⟩ | ⟨_, _, hcycle⟩ := cycle_of_legal h
  · exact ⟨_, hcycle⟩
  · exact ⟨_, hcycle.trans (acceptRequest_eq (s := s.edge i) hw)⟩
  · exact ⟨_, hcycle⟩

/-- A host that no longer drives the request that waits breaks the handshake. -/
theorem hostHolds_eq_false (hw : s.waiting = true) (h : i.reqValid = false ∨ i.reqWord ≠ s.ports.reqWord) :
    s.hostHolds i = false := by
  obtain h | h := h <;> simp [State.hostHolds, hw, h]

theorem acceptRequest_of_decode {w : Nat} {c : Instr} (h : decode s.cfg w = .ok c) : acceptRequest w s = exec c s := by
  rw [acceptRequest, h]

/-! ### What the outputs depend on (R75) -/

/-- `resp_valid` takes `rst` from the host's inputs, and nothing else. -/
theorem respValid_congr (hr : i.rst = j.rst) : s.respValid i = s.respValid j := by
  rw [State.respValid, State.respValid, hr]

theorem delivers_congr (hr : i.rst = j.rst) (hready : i.respReady = j.respReady) : s.delivers i = s.delivers j := by
  rw [State.delivers, State.delivers, hready, respValid_congr hr]

/-- `req_ready` takes `rst` and `resp_ready` from the host's inputs, and nothing else. -/
theorem reqReady_congr (hr : i.rst = j.rst) (hready : i.respReady = j.respReady) : s.reqReady i = s.reqReady j := by
  have hlen : s.countedLength i = s.countedLength j := by
    rw [State.countedLength, State.countedLength, delivers_congr hr hready]
  rw [State.reqReady, State.reqReady, State.hasRoom, State.hasRoom, hr, hlen]

/-- Outside reset, with the countdown ended and room in Q, `req_ready` is 1. -/
theorem reqReady_of_room (hr : i.rst = false) (hhold : s.reqHold = 0) (hroom : s.q.length < s.cfg.depth) :
    s.reqReady i = true := by
  simp [State.reqReady, hr, hhold, hasRoom_of_lt i hroom]

/-! ### A placed request (log entry 17) -/

theorem waiting_present (w : Nat) : (s.present w).waiting = false := by simp [State.waiting]

theorem legalInput_present {w : Nat} (hw : w < 2 ^ s.cfg.reqBits) :
    (s.present w).LegalInput (s.present w).nextInput :=
  .inr ⟨decide_eq_true hw, by simp [State.hostHolds, waiting_present]⟩

theorem reqReady_present (w : Nat) : (s.present w).reqReady (s.present w).nextInput = true := by
  have := s.cfg.depth_pos
  refine reqReady_of_room rfl rfl ?_
  rw [State.present_q, State.present_cfg, List.length_take]
  omega

theorem accepts_present (w : Nat) : (s.present w).accepts (s.present w).nextInput = true :=
  Bool.and_eq_true_iff.2 ⟨rfl, reqReady_present w⟩

/-- At every width the fields hold those of a W = 8 request word, so a table word decodes there to the same command. -/
theorem relayTableWord_decode (c : Config) {w : Nat} {i : Instr} (h : decode Config.table w = .ok i) :
    relayTableWord c w < 2 ^ c.reqBits ∧ decode c (relayTableWord c w) = .ok i := by
  have hwidth : Config.table.width ≤ c.width := c.eight_le_width
  have hiw : Config.table.iw ≤ c.iw := (Config.table.iw_le_iff _).2 (hwidth.trans_lt c.width_lt_two_pow_iw)
  have hop := reqOp_lt Config.table w
  have hidx := (reqIdx_lt Config.table w).trans_le (Nat.pow_le_pow_right (by decide) hiw)
  have ha := (reqA_lt Config.table w).trans_le (Nat.pow_le_pow_right (by decide) hwidth)
  refine ⟨reqWord_lt hop hidx ha, ?_⟩
  rw [relayTableWord, decode_reqWord hop hidx ha, ← decode_eq (lt_of_decode_ok h), h]

theorem decode_of_decodeTableWord {nbits w : Nat} {i : Instr} (h : decodeTableWord nbits w = some i) :
    decode Config.table (w % 2 ^ nbits) = .ok i := by
  rw [decodeTableWord] at h
  split at h
  · next hdec => rw [hdec, Option.some.inj h]
  · cases h

end Sys2Proof.Machine
end

section
/-! The statements of 70_reset_and_hazards.md on a single cycle. -/

namespace Sys2Proof.Machine

/-- Settles O40: the accepting step is the acceptance of its word (`step_of_accepts`), which runs what it decodes to. -/
theorem stepRunsTheDecodedCommand : Obligations.StepRunsTheDecodedCommand := by
  refine ⟨fun s i hl ha hdec => ?accepting, fun s hl hr hn => ?idle⟩
  case accepting => exact (step_of_accepts hl ha).2.trans (acceptRequest_of_decode (s := s.edge s.nextInput) hdec)
  case idle =>
    obtain ⟨hr', _⟩ | ⟨_, ha, _⟩ | ⟨_, _, hstep⟩ := cycle_of_legal hl
    · exact absurd hr' (by simp [hr])
    · exact absurd ha (by simp [hn])
    · exact hstep

/-- Settles O41: the placed request is legal and accepted (`legalInput_present`, `accepts_present`), and decodes to the
table word's command at every width (`relayTableWord_decode`). -/
theorem placedTableWordRunsNext : Obligations.PlacedTableWordRunsNext := by
  intro s nbits w i h
  obtain ⟨hw, hdec⟩ := relayTableWord_decode s.cfg (decode_of_decodeTableWord h)
  have hstep := stepRunsTheDecodedCommand.1 _ i (legalInput_present hw) (accepts_present _) hdec
  obtain ⟨extra, hexec⟩ := completesWith_replyOf i ((s.withFetchWord nbits w).edge (s.withFetchWord nbits w).nextInput)
  exact ⟨_, _, extra, hexec, hstep, rfl, rfl, reqReady_present _⟩

/-- Settles O42: a legal input is one of the three cycles that have a next state; any other fails one of two checks. -/
theorem everyLegalCycleHasANextState : Obligations.EveryLegalCycleHasANextState := by
  refine fun s => ⟨exists_next_of_legal, fun hn => ?_⟩
  simp only [State.LegalInput, not_or, not_and, Bool.not_eq_true] at hn
  obtain ⟨hr, hholds⟩ := hn
  cases hfit : s.wordFits s.nextInput with
  | false => exact .inl (cycle_of_not_wordFits hr hfit)
  | true => exact .inr (cycle_of_not_hostHolds hr hfit (hholds hfit))

/-- Settles O43: dropping or changing a waiting request is not holding it (`hostHolds_eq_false`). -/
theorem brokenHandshakeIsRefused : Obligations.BrokenHandshakeIsRefused :=
  fun _ hw hr hfit h => cycle_of_not_hostHolds hr hfit (hostHolds_eq_false hw h)

/-- Settles O45, by the inputs each output takes (`respValid_congr`, `reqReady_congr`). -/
theorem outputsIgnoreTheOtherSidesValid : Obligations.OutputsIgnoreTheOtherSidesValid := by
  intro s i j t u ht hu hr
  rw [cycle_ports ht, cycle_ports hu]
  exact ⟨respValid_congr hr, reqReady_congr hr⟩

end Sys2Proof.Machine
end

section
/-! SUPPORT. Runs against a host whose script is known for the coming cycles, and the host's record over them. -/

namespace Sys2Proof.Machine

variable {s t u : State} {n m : Nat} {P : HostInput → Prop}

/-! ### The last step of a run -/

theorem run_last_step (h : Host.Core.run core (n + 1) s = .next u) :
    ∃ v, Host.Core.run core n s = .next v ∧ step v = .next u := by
  induction n generalizing s with
  | zero =>
    obtain ⟨t, hstep, hrun⟩ := run_succ h
    exact ⟨s, rfl, run_zero hrun ▸ hstep⟩
  | succ n ih =>
    obtain ⟨t, hstep, hrun⟩ := run_succ h
    obtain ⟨v, hv, hlast⟩ := ih hrun
    exact ⟨v, (run_of_step hstep).trans hv, hlast⟩

/-! ### The host's script -/

/-- In the next `n` cycles, as far as the host's script goes, the host's inputs satisfy `P`. -/
def State.Drives (s : State) (P : HostInput → Prop) (n : Nat) : Prop := ∀ i ∈ s.host.script.take n, P i

theorem State.Drives.of_step (h : s.Drives P (n + 1)) (hstep : step s = .next t) : t.Drives P n := by
  intro i hi
  rw [cycle_script hstep] at hi
  refine h i ?_
  match hs : s.host.script with
  | [] => simp [hs] at hi
  | j :: rest => simpa [hs] using .inr (by simpa [hs] using hi)

theorem State.Drives.of_run (h : s.Drives P (m + n)) (hrun : Host.Core.run core m s = .next t) : t.Drives P n := by
  induction m generalizing s with
  | zero =>
    obtain rfl := run_zero hrun
    simpa using h
  | succ m ih =>
    obtain ⟨v, hstep, hrun⟩ := run_succ hrun
    rw [Nat.add_right_comm] at h
    exact ih (h.of_step hstep) hrun

theorem State.Drives.imp {Q : HostInput → Prop} (h : s.Drives P n) (himp : ∀ i, P i → Q i) : s.Drives Q n :=
  fun i hi => himp i (h i hi)

/-- The next cycle's inputs are those of the script, or what the host does past its end. -/
theorem State.Drives.nextInput (h : s.Drives P (n + 1)) (hend : s.host.script = [] → P s.nextInput) :
    P s.nextInput := by
  match hs : s.host.script with
  | [] => exact hend hs
  | i :: rest =>
    rw [State.nextInput, hs]
    exact h i (by simp [hs])

/-- Past the end of its script the host does not reset. -/
theorem State.Drives.nextInput_rst (h : s.Drives (·.rst = false) (n + 1)) : s.nextInput.rst = false := by
  refine h.nextInput fun hs => ?_
  rw [State.nextInput, hs]
  dsimp only
  split <;> rfl

/-- Past the end of its script the host requests nothing, unless a request waits. -/
theorem State.Drives.nextInput_reqValid (h : s.Drives (·.reqValid = false) (n + 1)) (hw : s.waiting = false) :
    s.nextInput.reqValid = false :=
  h.nextInput fun hs => by simp [State.nextInput, hs, hw]

theorem State.Drives.nextInput_of_lt (h : s.Drives P (n + 1)) (hlen : m < s.host.script.length) : P s.nextInput :=
  h.nextInput fun hs => by simp [hs] at hlen

theorem length_script_of_step (h : step s = .next t) (hlen : n + 1 < s.host.script.length) :
    n < t.host.script.length := by
  rw [cycle_script h, List.length_tail]
  omega

/-! ### The host's record over a cycle outside reset -/

theorem cycle_accepted {i : HostInput} (h : s.cycle i = .next t) (hr : i.rst = false) :
    t.host.accepted = s.host.accepted ++ if s.accepts i then [i.reqWord] else [] := by
  obtain ⟨hr', _⟩ | ⟨_, _, _, _, _, rfl⟩ | ⟨_, _, _, _, rfl⟩ := cycle_cases h
  · simp [hr] at hr'
  · rfl
  · rfl

theorem cycle_received {i : HostInput} (h : s.cycle i = .next t) (hr : i.rst = false) :
    t.host.received = s.host.received ++ if s.delivers i then (s.q.take 1).map Pending.rsp else [] := by
  obtain ⟨hr', _⟩ | ⟨_, _, _, _, _, rfl⟩ | ⟨_, _, _, _, rfl⟩ := cycle_cases h
  · simp [hr] at hr'
  · rfl
  · rfl

/-- A host that requests nothing and does not reset meets no refusal, and nothing is added to what is delivered and
pending. -/
theorem exists_run_of_no_request (hw : s.waiting = false) (hrst : s.Drives (·.rst = false) n)
    (hreq : s.Drives (·.reqValid = false) n) :
    ∃ t, Host.Core.run core n s = .next t ∧
      t.host.received ++ t.q.map Pending.rsp = s.host.received ++ s.q.map Pending.rsp := by
  induction n generalizing s with
  | zero => exact ⟨s, rfl, rfl⟩
  | succ n ih =>
    have hr := hrst.nextInput_rst
    have hv := hreq.nextInput_reqValid hw
    have hlegal : s.LegalInput s.nextInput := .inr ⟨by simp [State.wordFits, hv], by simp [State.hostHolds, hw]⟩
    have hstep := stepRunsTheDecodedCommand.2 s hlegal hr (by simp [State.accepts, hv])
    obtain ⟨t, hrun, hrecord⟩ := ih (s := s.edge s.nextInput) (by simp [State.waiting, hv]) (hrst.of_step hstep)
      (hreq.of_step hstep)
    exact ⟨t, (run_of_step hstep).trans hrun, hrecord.trans (received_append_q_edge s _)⟩

end Sys2Proof.Machine
end

section
/-! SUPPORT. The delay after reset runs down by itself, and nothing is presented before a request has been accepted (R72). -/

namespace Sys2Proof.Machine

variable {s t u : State} {n d : Nat}

/-- The delay after reset has `d` more cycles to run, and nothing is pending. -/
def State.StartsIn (s : State) (d : Nat) : Prop := s.starting = true ∧ s.reqHold = d ∧ s.q = []

theorem State.StartsIn.step (h : s.StartsIn (d + 1)) (hr : s.nextInput.rst = false) (hstep : step s = .next t) :
    t.StartsIn d := by
  obtain ⟨hstart, hhold, hq⟩ := h
  have hne : s.reqHold ≠ 0 := by omega
  obtain ⟨hr', _⟩ | ⟨_, _, _, ha, _, _⟩ | ⟨_, _, _, _, rfl⟩ := cycle_cases hstep
  · simp [hr] at hr'
  · exact absurd (reqHold_of_accepts ha) hne
  · exact ⟨by simp [hstart, hne], by rw [edge_reqHold_of_starting hstart hne, hhold]; rfl, by simp [hq]⟩

theorem State.StartsIn.run (h : s.StartsIn (n + d)) (hrst : s.Drives (·.rst = false) n)
    (hrun : Host.Core.run core n s = .next t) : t.StartsIn d := by
  induction n generalizing s with
  | zero =>
    obtain rfl := run_zero hrun
    simpa using h
  | succ n ih =>
    obtain ⟨v, hstep, hrun⟩ := run_succ hrun
    rw [Nat.add_right_comm] at h
    exact ih (h.step hrst.nextInput_rst hstep) (hrst.of_step hstep) hrun

/-- In the `k`-th cycle of the delay and the one after it, `req_ready` is 0 and then 1. -/
theorem State.StartsIn.reqReady_after {k : Nat} (h : s.StartsIn d) (hrst : s.Drives (·.rst = false) (k + 1))
    (hrun : Host.Core.run core (k + 1) s = .next u) :
    (k < d → u.ports.reqReady = false) ∧ (k = d → u.ports.reqReady = true) := by
  obtain ⟨v, hv, hlast⟩ := run_last_step hrun
  have hr : v.nextInput.rst = false := (hrst.of_run hv).nextInput_rst
  have hrst' : s.Drives (·.rst = false) k := fun i hi => hrst i (List.take_subset_take_left _ (Nat.le_succ k) hi)
  rw [cycle_ports hlast]
  constructor
  · intro hk
    obtain ⟨_, hhold, _⟩ := State.StartsIn.run (n := k) (d := d - k) (by rwa [Nat.add_sub_cancel' hk.le]) hrst' hv
    exact reqReady_of_reqHold_ne (by omega)
  · rintro rfl
    obtain ⟨_, hhold, hq⟩ := State.StartsIn.run (d := 0) h hrst' hv
    exact reqReady_of_room hr hhold (hq ▸ v.cfg.depth_pos)

/-- While no request has been accepted since reset, Q is empty. -/
def State.IdleIsEmpty (s : State) : Prop := s.host.accepted = [] → s.q = []

theorem step_idleIsEmpty (hs : s.IdleIsEmpty) (h : step s = .next t) : t.IdleIsEmpty := by
  intro hacc
  obtain ⟨_, rfl⟩ | ⟨_, _, _, ha, _, rfl⟩ | ⟨_, _, _, ha, rfl⟩ := cycle_cases h
  · rfl
  · simp [ha] at hacc
  · simp only [State.edge_accepted, ha, Bool.false_eq_true, if_false, List.append_nil] at hacc
    simp [hs hacc]

/-- A cycle outside reset before the first acceptance presents no response. -/
theorem respValid_of_nothing_accepted (hs : s.IdleIsEmpty) (hr : s.nextInput.rst = false) (h : step s = .next t)
    (hacc : t.host.accepted = []) : t.ports.respValid = false := by
  rw [cycle_accepted h hr] at hacc
  rw [cycle_ports h]
  exact respValid_of_nil (hs (List.append_eq_nil_iff.1 hacc).1)

end Sys2Proof.Machine
end

section
/-! SUPPORT. Progress: the countdown of a held request (R77(a)) and that of the head of Q (R77(b)) end. -/

namespace Sys2Proof.Machine

variable {s t : State} {n : Nat}

/-! ### A held request (R77(a)) -/

/-- While a request waits and Q has room, every edge takes one cycle off the countdown of `req_ready`. -/
theorem edge_reqHold_of_waiting {i : HostInput} (hv : i.reqValid = true) (hroom : s.q.length < s.cfg.depth)
    (hhold : s.reqHold ≠ 0) : (s.edge i).reqHold = s.reqHold - 1 := by
  simp [State.nextHold, hv, reqReady_of_reqHold_ne hhold, hasRoom_of_lt i hroom]

/-- The inputs of a cycle in which the host requests `w`. -/
def Requests (w : Nat) (i : HostInput) : Prop := i.rst = false ∧ i.reqValid = true ∧ i.reqWord = w

theorem legalInput_of_requests {w : Nat} {i : HostInput} (hi : Requests w i) (hw : w < 2 ^ s.cfg.reqBits)
    (hwait : s.waiting = true → s.ports.reqWord = w) : s.LegalInput i := by
  obtain ⟨_, hv, rfl⟩ := hi
  refine .inr ⟨by simpa [State.wordFits, hv] using hw, ?_⟩
  cases h : s.waiting with
  | false => simp [State.hostHolds, h]
  | true => simp [State.hostHolds, hv, h, hwait h]

/-- A request the host holds while Q has room is the one accepted in a run through the countdown of `req_ready`. -/
theorem held_request_accepted {w : Nat} (hhold : s.reqHold = n) (hlen : n < s.host.script.length)
    (hdrive : s.Drives (Requests w) (n + 1)) (hw : w < 2 ^ s.cfg.reqBits)
    (hwait : s.waiting = true → s.ports.reqWord = w) (hroom : s.q.length < s.cfg.depth) :
    ∃ t, Host.Core.run core (n + 1) s = .next t ∧ t.ports.reqReady = true ∧
      t.host.accepted = s.host.accepted ++ [w] := by
  induction n generalizing s with
  | zero =>
    have hi := hdrive.nextInput_of_lt hlen
    obtain ⟨t, hstep⟩ := exists_next_of_legal (legalInput_of_requests hi hw hwait)
    obtain ⟨hr, hv, hword⟩ := hi
    have hready := reqReady_of_room hr hhold hroom
    have ha : s.accepts s.nextInput = true := Bool.and_eq_true_iff.2 ⟨hv, hready⟩
    exact ⟨t, run_of_step hstep, by rwa [cycle_ports hstep], by rw [cycle_accepted hstep hr, if_pos ha, hword]⟩
  | succ n ih =>
    have hi := hdrive.nextInput_of_lt hlen
    have hlegal := legalInput_of_requests hi hw hwait
    obtain ⟨hr, hv, hword⟩ := hi
    have hne : s.reqHold ≠ 0 := by omega
    have ha := accepts_of_reqReady_eq_false (reqReady_of_reqHold_ne (i := s.nextInput) hne)
    have hstep := stepRunsTheDecodedCommand.2 s hlegal hr ha
    have hroom' : (s.edge s.nextInput).q.length < s.cfg.depth := by
      rw [length_edge_q]
      split <;> omega
    obtain ⟨t, hrun, hready, hacc⟩ := ih (s := s.edge s.nextInput)
      (by rw [edge_reqHold_of_waiting hv hroom hne, hhold]; rfl) (length_script_of_step hstep hlen)
      (hdrive.of_step hstep) hw (fun _ => hword) hroom'
    exact ⟨t, (run_of_step hstep).trans hrun, hready, by simp [hacc, ha]⟩

/-! ### The head of Q (R77(b)) -/

/-- Outside reset the countdown of Q's head loses one cycle, and nothing is delivered before it has ended. -/
theorem step_head_waits {r : Rsp} {rest : List Pending} (hq : s.q = ⟨r, n + 1⟩ :: rest)
    (hr : s.nextInput.rst = false) (h : step s = .next t) :
    (∃ rest', t.q = ⟨r, n⟩ :: rest') ∧ t.host.received = s.host.received := by
  have hdelivers : s.delivers s.nextInput = false :=
    delivers_of_respValid_eq_false (by simp [respValid_of_cons hq hr])
  obtain ⟨more, htq, _⟩ := cycle_q h hr
  exact ⟨⟨rest.map Pending.tick ++ more, by simp [htq, hdelivers, hq, Pending.tick]⟩,
    by simp [cycle_received h hr, hdelivers]⟩

/-- The inputs of a cycle in which the host takes a response. -/
def Takes (i : HostInput) : Prop := i.rst = false ∧ i.respReady = true

/-- A run through the countdown of Q's head, to a host that takes responses, delivers the head alone. -/
theorem head_delivered {r : Rsp} {rest : List Pending} (hq : s.q = ⟨r, n⟩ :: rest) (hlen : n < s.host.script.length)
    (hdrive : s.Drives Takes (n + 1)) (hrun : Host.Core.run core (n + 1) s = .next t) :
    t.host.received = s.host.received ++ [r] := by
  induction n generalizing s rest with
  | zero =>
    obtain ⟨hr, hready⟩ := hdrive.nextInput_of_lt hlen
    obtain ⟨v, hstep, hrun⟩ := run_succ hrun
    obtain rfl := run_zero hrun
    have hdelivers : s.delivers s.nextInput = true :=
      Bool.and_eq_true_iff.2 ⟨hready, by simp [respValid_of_cons hq hr]⟩
    simp [cycle_received hstep hr, hdelivers, hq]
  | succ n ih =>
    obtain ⟨v, hstep, hrun⟩ := run_succ hrun
    obtain ⟨⟨_, hvq⟩, hreceived⟩ := step_head_waits hq (hdrive.nextInput_of_lt hlen).1 hstep
    rw [ih hvq (length_script_of_step hstep hlen) (hdrive.of_step hstep) hrun, hreceived]

end Sys2Proof.Machine
end

section
/-! SUPPORT. LATENCY: no response is presented before its countdown has ended, whatever happens meanwhile (R79). -/

namespace Sys2Proof.Machine

variable {s t : State} {n : Nat}

/-- Every pending response from position `k` on, those delivered counted, has at least `w` cycles to wait. -/
def State.WaitsFrom (s : State) (k w : Nat) : Prop := ∀ p ∈ s.q.drop (k - s.host.received.length), w ≤ p.wait

/-- An edge moves no response to another position: what delivery takes from Q it adds to the record. -/
theorem edge_waitsFrom {i : HostInput} {k w : Nat} (hs : s.WaitsFrom k w) : (s.edge i).WaitsFrom k (w - 1) := by
  intro p hp
  have hmem : ∃ p' ∈ s.q.drop (k - s.host.received.length), p'.tick = p := by
    rw [State.edge_q, State.edge_received, List.length_append, ← List.map_drop] at hp
    obtain ⟨p', hp', htick⟩ := List.mem_map.1 hp
    refine ⟨p', ?_, htick⟩
    split at hp'
    · have hlen : ((s.q.take 1).map Pending.rsp).length ≤ 1 := by simp
      rw [← List.drop_one, List.drop_drop] at hp'
      exact List.drop_subset_drop_left _ (by omega) hp'
    · exact hp'
  obtain ⟨p', hp', rfl⟩ := hmem
  exact Nat.sub_le_sub_right (hs p' hp') 1

/-- A step takes at most one cycle off each countdown, and adds no response sooner than LATENCY. -/
theorem step_waitsFrom {k w : Nat} (hs : s.WaitsFrom k w) (hw : w ≤ s.cfg.latency) (h : step s = .next t) :
    t.WaitsFrom k (w - 1) := by
  obtain ⟨_, rfl⟩ | ⟨_, _, _, _, _, rfl⟩ | ⟨_, _, _, _, rfl⟩ := cycle_cases h
  · simp [State.WaitsFrom]
  · intro p hp
    rw [State.respond_q, State.respond_host, List.drop_append] at hp
    obtain hp | hp := List.mem_append.1 hp
    · exact edge_waitsFrom hs p hp
    · rw [List.mem_singleton.1 (List.mem_of_mem_drop hp), State.edge_cfg]
      dsimp only
      omega
  · exact edge_waitsFrom hs

theorem run_waitsFrom {k w : Nat} (hs : s.WaitsFrom k w) (hw : w ≤ s.cfg.latency)
    (h : Host.Core.run core n s = .next t) : t.WaitsFrom k (w - n) := by
  induction n generalizing s w with
  | zero =>
    obtain rfl := run_zero h
    exact hs
  | succ n ih =>
    obtain ⟨v, hstep, hrun⟩ := run_succ h
    have hv := ih (step_waitsFrom hs hw hstep) (by rw [cycle_cfg hstep]; omega) hrun
    rwa [Nat.sub_sub, Nat.add_comm 1] at hv

/-- What is presented stands before the responses that still wait. -/
theorem lt_of_waitsFrom_of_respValid {i : HostInput} {k w : Nat} (hs : s.WaitsFrom k w) (hw : 0 < w)
    (h : s.respValid i = true) : s.host.received.length < k := by
  by_contra hle
  obtain ⟨p, rest, hq, _⟩ := presents_head h
  have hwait : p.wait = 0 := by simpa [respValid_of_cons hq (rst_of_respValid h)] using h
  have := hs p (by simp [hq, Nat.sub_eq_zero_of_le (not_lt.1 hle)])
  omega

/-- An accepting step puts its response at the tail of Q, to wait LATENCY - 1 cycles or more. -/
theorem cycle_appends {i : HostInput} (ha : s.accepts i = true) (h : s.cycle i = .next t) :
    ∃ p, t.q = (s.edge i).q ++ [p] ∧ s.cfg.latency - 1 ≤ p.wait := by
  obtain ⟨hr, _⟩ | ⟨_, _, _, _, _, rfl⟩ | ⟨_, _, _, hn, _⟩ := cycle_cases h
  · simp [accepts_rst ha] at hr
  · exact ⟨_, rfl, Nat.le_add_right _ _⟩
  · simp [ha] at hn

/-- After an accepting step the response appended waits LATENCY - 1 cycles, and so do all if Q was empty. -/
theorem waitsFrom_of_accepts {i : HostInput} (ha : s.accepts i = true) (h : s.cycle i = .next t) :
    t.WaitsFrom (t.host.received.length + t.q.length - 1) (s.cfg.latency - 1) ∧
      (s.q = [] → t.WaitsFrom 0 (s.cfg.latency - 1)) := by
  obtain ⟨p, hq, hwait⟩ := cycle_appends ha h
  constructor
  · intro p' hp'
    have hpos : t.host.received.length + t.q.length - 1 - t.host.received.length = (s.edge i).q.length := by
      simp [hq]
    rw [hpos, hq, List.drop_left] at hp'
    rwa [List.mem_singleton.1 hp']
  · intro hempty p' hp'
    rw [Nat.zero_sub, hq, State.edge_q, hempty] at hp'
    obtain rfl : p' = p := by simpa using hp'
    exact hwait

end Sys2Proof.Machine
end

section
/-! The statements of 70_reset_and_hazards.md on runs: boot, progress and LATENCY. -/

namespace Sys2Proof.Machine

/-- Settles O38: the delay is the countdown the reset edge drew (`State.StartsIn.reqReady_after`), and Q stays empty until
a request is accepted (`step_idleIsEmpty`). -/
theorem readyDelayAfterReset : Obligations.ReadyDelayAfterReset := by
  intro s t h hr
  rw [cycle_ports h] at hr
  obtain ⟨_, rfl⟩ | ⟨hn, _⟩ | ⟨hn, _⟩ := cycle_cases h
  · refine ⟨_, resetEdge_reqHold_le s s.nextInput, fun k u hk hrun hrst => ?_⟩
    obtain ⟨k, rfl⟩ := Nat.exists_eq_succ_of_ne_zero (by omega : k ≠ 0)
    obtain ⟨hlow, hhigh⟩ := State.StartsIn.reqReady_after ⟨rfl, rfl, rfl⟩ hrst hrun
    obtain ⟨v, hv, hlast⟩ := run_last_step hrun
    have hidle : v.IdleIsEmpty := run_induction (fun _ _ => step_idleIsEmpty) k _ v (fun _ => rfl) hv
    exact ⟨hlow, fun hkd => hhigh (Nat.succ.inj hkd),
      respValid_of_nothing_accepted hidle (State.Drives.of_run (n := 1) hrst hv).nextInput_rst hlast⟩
  · simp [hn] at hr
  · simp [hn] at hr

/-- Settles O39: a host that requests nothing meets no refusal (`exists_run_of_no_request`), so it sees the cycle after the
delay, in which `req_ready` is 1 (`State.StartsIn.reqReady_after`). -/
theorem bootReachesReady : Obligations.BootReachesReady := by
  intro s i rest hscript hr hlen hrest
  have hnext : s.nextInput = i := by rw [State.nextInput, hscript]
  have hstep : step s = .next (s.resetEdge i) := by rw [step_eq, hnext, cycle_of_rst hr]
  have hdrive (n : Nat) : (s.resetEdge i).Drives (fun j => j.rst = false ∧ j.reqValid = false) n := fun j hj => by
    rw [State.resetEdge_host, hscript] at hj
    exact hrest j (List.mem_of_mem_take hj)
  have hrst := (hdrive ((s.resetEdge i).reqHold + 1)).imp fun _ => And.left
  obtain ⟨t, hrun, hrecord⟩ := exists_run_of_no_request (waiting_of_rst hr) hrst ((hdrive _).imp fun _ => And.right)
  refine ⟨_, resetEdge_reqHold_le s i, t, (run_of_step hstep).trans hrun, ?_, ?_⟩
  · exact (State.StartsIn.reqReady_after ⟨rfl, rfl, rfl⟩ hrst hrun).2 rfl
  · simpa using (List.append_eq_nil_iff.1 hrecord).2

/-- Settles O47, by the countdown of `req_ready` (`held_request_accepted`). -/
theorem heldRequestIsEventuallyAccepted : Obligations.HeldRequestIsEventuallyAccepted :=
  fun _ _ hlen hdrive hw hwait hroom => held_request_accepted rfl hlen hdrive hw hwait hroom

/-- Settles O48: the run through the head's countdown delivers it (`head_delivered`), and without requests what is then
pending is the rest (`exists_run_of_no_request`). -/
theorem headOfQueueIsEventuallyDelivered : Obligations.HeadOfQueueIsEventuallyDelivered := by
  intro s p rest hq hlen hdrive
  have hdelivered (t : State) := head_delivered (t := t) hq hlen hdrive
  refine ⟨hdelivered, fun hw hreq => ?_⟩
  obtain ⟨t, hrun, hrecord⟩ := exists_run_of_no_request hw (State.Drives.imp hdrive fun _ => And.left) hreq
  rw [hdelivered t hrun, hq, List.map_cons, List.append_assoc] at hrecord
  exact ⟨t, hrun, (List.cons.inj (List.append_cancel_left hrecord)).2⟩

/-- Settles O49: the responses that wait LATENCY - 1 cycles after the acceptance (`waitsFrom_of_accepts`) still wait in each
of those cycles (`run_waitsFrom`), so what is presented stands before them. -/
theorem noResponseSoonerThanLatency : Obligations.NoResponseSoonerThanLatency := by
  intro s t ha h k v u hk hlt hv hlast
  have hlatency : s.cfg.latency - 1 ≤ t.cfg.latency := by rw [cycle_cfg h]; exact Nat.sub_le _ _
  have before (j : Nat) (hj : t.WaitsFrom j (s.cfg.latency - 1)) (hvalid : u.ports.respValid = true) :
      v.host.received.length < j := by
    rw [cycle_ports hlast] at hvalid
    exact lt_of_waitsFrom_of_respValid (run_waitsFrom hj hlatency hv) (by omega) hvalid
  obtain ⟨hlastWaits, hallWait⟩ := waitsFrom_of_accepts ha h
  refine ⟨fun hvalid => ?_, fun hempty => Bool.eq_false_iff.2 fun hvalid => ?_⟩
  · have := before _ hlastWaits hvalid
    omega
  · exact absurd (before 0 (hallWait hempty) hvalid) (Nat.not_lt_zero _)

end Sys2Proof.Machine
end
